-- ==== Sys2Proof/Word.lean ====
section
/-! DEFINITION. The word types of EMU-16. A value (a register's, a cell's, an immediate, an ALU result) is an `Int`: the
spec takes XLEN unbounded (spec/00_scope.md R8, R12, decision D1, log 5). An address and a program index are any `Int`
too (spec/20_memory.md R59, spec/10_state.md R24, R26). A text is a list of characters. -/

namespace Sys2Proof

/-- Source text, a source line or a token: Unicode characters in order (spec/00_scope.md R5; log 9). -/
abbrev Text := List Char

end Sys2Proof
end

