-- ==== Sys2Proof/Machine/Characters.lean ====
section
/-! DEFINITION. The character classes of the decoder: white space (spec/30_encoding.md R71) and the characters an operand
token may not hold (R86). -/

namespace Sys2Proof

/-- White space is the ASCII set space, tab, LF, VT, FF, CR (spec/30_encoding.md R71, decision D3, log 15). -/
def isSpace (c : Char) : Bool := c.toNat == 32 || (9 ≤ c.toNat && c.toNat ≤ 13)

/-- A character an operand token may not hold: `_` or non-ASCII (spec/30_encoding.md R86, decision D2, log 7). -/
def isRefusedChar (c : Char) : Bool := c == '_' || 128 ≤ c.toNat

end Sys2Proof
end

