-- ==== Sys2Proof/Config.lean ====
section
/-! DEFINITION. The implementation parameters of spec/00_scope.md (R6 to R11) and spec/93_implementation_defined.md
(I9 to I12), each at the value the spec takes, and the one thing left free: the texts of error messages (I14). -/

namespace Sys2Proof

/-- XLEN, the width of a value: `none` is unbounded, the spec's choice (spec/00_scope.md R8, decision D1, log 5);
`some N` is N bits. -/
def Config.xlen : Option Nat := none

/-- MEM_SIZE: data memory accepts the addresses `0 <= a < 4096` (spec/00_scope.md R7; unaudited literal, log 18). -/
def Config.memSize : Nat := 4096

/-- MAX_STEPS_DEFAULT: the run driver's default budget (spec/00_scope.md R9; unaudited literal, log 18). -/
def Config.maxStepsDefault : Int := 10000

/-- ENC_PLACEHOLDER, field P1 of the diagnostic word, bits 35 to 18 (spec/30_encoding.md R90, decision D8, log 13). -/
def Config.placeholder1 : BitVec 18 := 0

/-- ENC_PLACEHOLDER, field P2 of the diagnostic word, bits 17 to 0 (spec/30_encoding.md R90, decision D8, log 13). -/
def Config.placeholder2 : BitVec 18 := 0

/-- FREE VALUE: the text before the offending token in the message of the failure with this code (spec/60_exceptions.md
R200), line and token. The spec leaves message texts to the implementation (R223, decision D15, I14; log 11). -/
opaque Config.messageHead : Nat → Nat → Text → Text

/-- FREE VALUE: the text after the offending token in such a message (R223, decision D15, I14; log 11). -/
opaque Config.messageTail : Nat → Nat → Text → Text

end Sys2Proof
end

