-- ==== Sys2Proof/Syntax.lean ====
section
/-! DEFINITION. The instructions, whole: the four operand shapes (spec/30_encoding.md R80), the 16 mnemonics (R74, R92),
one constructor of `Instr` per row of spec/opcode_table.json with its two operand descriptors (spec/00_scope.md R5), and
the instruction record the decoder makes of a source line (spec/10_state.md R27, spec/30_encoding.md R79). -/

namespace Sys2Proof

/-- The four registers (spec/10_state.md R20, R21; spec/00_scope.md R6). -/
inductive Reg where
  | eax | ebx | ecx | edx
deriving DecidableEq, Repr

/-- The register's index, `eax = 0` to `edx = 3` (spec/10_state.md R21, decision D9, log 20; no rule depends on it). -/
def Reg.index : Reg → Fin 4
  | .eax => 0
  | .ebx => 1
  | .ecx => 2
  | .edx => 3

/-- An operand descriptor (spec/30_encoding.md R80). -/
inductive Operand where
  /-- register mode `eax` -/
  | reg (r : Reg)
  /-- register-indirect mode `[eax]` -/
  | ind (r : Reg)
  /-- direct mode `[12]` -/
  | dir (n : Int)
  /-- immediate mode `12`, and every token of no other shape as `Imm(0)` -/
  | imm (n : Int)
deriving DecidableEq, Repr

/-- The 16 mnemonics, in the order of the source's list (spec/30_encoding.md R74, R92; spec/00_scope.md R10). -/
inductive Mnemonic where
  | mov | add | sub | mul | div | jmp | jz | jnz | js | jns | and | or | xor | not | cmp | inc
deriving DecidableEq, Repr

/-- One constructor per mnemonic, each with the descriptors of operand1 and operand2 (spec/00_scope.md R5). The second
operand of `inc`, `not` and the five jumps is kept and never read (spec/30_encoding.md R73, R88). -/
inductive Instr where
  | mov (d s : Operand)
  | add (d s : Operand)
  | sub (d s : Operand)
  | mul (d s : Operand)
  | div (d s : Operand)
  | jmp (t u : Operand)
  | jz (t u : Operand)
  | jnz (t u : Operand)
  | js (t u : Operand)
  | jns (t u : Operand)
  | and (d s : Operand)
  | or (d s : Operand)
  | xor (d s : Operand)
  | not (d u : Operand)
  | cmp (a b : Operand)
  | inc (d u : Operand)
deriving DecidableEq, Repr

/-- An instruction record (spec/10_state.md R27, spec/30_encoding.md R79). -/
structure InstrRecord where
  /-- the mnemonic, case-folded -/
  opcode   : Mnemonic
  /-- token[1], or the empty token -/
  operand1 : Text
  /-- token[2], or the empty token -/
  operand2 : Text
  /-- the original source line, for display and diagnostics only (log 8) -/
  source   : Text
  /-- the 1-based physical line number, for diagnostics only -/
  lineNo   : Nat
deriving DecidableEq, Repr

/-- The mnemonic of an instruction. -/
def Instr.mnemonic : Instr → Mnemonic
  | .mov _ _ => .mov
  | .add _ _ => .add
  | .sub _ _ => .sub
  | .mul _ _ => .mul
  | .div _ _ => .div
  | .jmp _ _ => .jmp
  | .jz _ _ => .jz
  | .jnz _ _ => .jnz
  | .js _ _ => .js
  | .jns _ _ => .jns
  | .and _ _ => .and
  | .or _ _ => .or
  | .xor _ _ => .xor
  | .not _ _ => .not
  | .cmp _ _ => .cmp
  | .inc _ _ => .inc

/-- The descriptor of operand1. -/
def Instr.operand1 : Instr → Operand
  | .mov d _ | .add d _ | .sub d _ | .mul d _ | .div d _ | .and d _ | .or d _ | .xor d _ | .not d _ | .inc d _ => d
  | .jmp t _ | .jz t _ | .jnz t _ | .js t _ | .jns t _ => t
  | .cmp a _ => a

/-- The descriptor of operand2. -/
def Instr.operand2 : Instr → Operand
  | .mov _ s | .add _ s | .sub _ s | .mul _ s | .div _ s | .and _ s | .or _ s | .xor _ s => s
  | .jmp _ u | .jz _ u | .jnz _ u | .js _ u | .jns _ u | .not _ u | .inc _ u => u
  | .cmp _ b => b

/-- The five jumps (spec/45_control.md R181 to R185). -/
def Mnemonic.isJump : Mnemonic → Bool
  | .jmp | .jz | .jnz | .js | .jns => true
  | .mov | .add | .sub | .mul | .div | .and | .or | .xor | .not | .cmp | .inc => false

/-- The instructions that write their first operand (spec/10_state.md R38, spec/20_memory.md R57). -/
def Mnemonic.writesOperand1 : Mnemonic → Bool
  | .mov | .add | .sub | .mul | .div | .and | .or | .xor | .not | .inc => true
  | .jmp | .jz | .jnz | .js | .jns | .cmp => false

/-- The instructions that write the flags (spec/10_state.md R23). -/
def Mnemonic.writesFlags : Mnemonic → Bool
  | .add | .sub | .cmp => true
  | .mov | .mul | .div | .jmp | .jz | .jnz | .js | .jns | .and | .or | .xor | .not | .inc => false

end Sys2Proof
end

