-- ==== Sys2Proof/Machine/Values.lean ====
section
/-! DEFINITION. The arithmetic of values: the bits of an integer (spec/00_scope.md R13), `wrap` (R16), truncating division
(R17) and the bitwise functions on two's-complement integers (R18). -/

namespace Sys2Proof

/-- Bit `i` of `v` in the infinite two's-complement view: `floor(v / 2^i) mod 2` (spec/00_scope.md R13). -/
def intBit (v : Int) (i : Nat) : Bool := (v / 2 ^ i) % 2 == 1

/-- `wrap(v)` at a given XLEN: the identity when unbounded, else `((v + 2^(N-1)) mod 2^N) - 2^(N-1)`
(spec/00_scope.md R16; `N = 0` is no width, log 5). -/
def wrapAt (xlen : Option Nat) (v : Int) : Int :=
  match xlen with
  | none => v
  | some n => (v + 2 ^ (n - 1)) % 2 ^ n - 2 ^ (n - 1)

/-- `wrap(v)` at the machine's XLEN (spec/00_scope.md R16). -/
def wrap (v : Int) : Int := wrapAt Config.xlen v

/-- `tdiv(a, b)`: the quotient truncated toward zero, `sign(a) * sign(b) * floor(|a| / |b|)` (spec/00_scope.md R17;
asked for only when `b` is not 0; log 19). -/
def tdiv (a b : Int) : Int := a.sign * b.sign * ((a.natAbs / b.natAbs : Nat) : Int)

/-- `bnot(a) = -a - 1` (spec/00_scope.md R18; log 19). -/
def bnot (a : Int) : Int := -a - 1

/-- `band(a, b)`: the integer whose every bit is the AND of the bits of `a` and `b` (spec/00_scope.md R18; log 19).
A negative integer `-(n+1)` has the complemented bits of `n`, and `m AND NOT n` is `m XOR (m AND n)`. -/
def band : Int → Int → Int
  | .ofNat m, .ofNat n => .ofNat (m &&& n)
  | .ofNat m, .negSucc n => .ofNat (m ^^^ (m &&& n))
  | .negSucc m, .ofNat n => .ofNat (n ^^^ (n &&& m))
  | .negSucc m, .negSucc n => .negSucc (m ||| n)

/-- `bor(a, b)`: the OR at every bit (spec/00_scope.md R18; log 19). -/
def bor : Int → Int → Int
  | .ofNat m, .ofNat n => .ofNat (m ||| n)
  | .ofNat m, .negSucc n => .negSucc (n ^^^ (n &&& m))
  | .negSucc m, .ofNat n => .negSucc (m ^^^ (m &&& n))
  | .negSucc m, .negSucc n => .negSucc (m &&& n)

/-- `bxor(a, b)`: the exclusive OR at every bit (spec/00_scope.md R18; log 19). -/
def bxor : Int → Int → Int
  | .ofNat m, .ofNat n => .ofNat (m ^^^ n)
  | .ofNat m, .negSucc n => .negSucc (m ^^^ n)
  | .negSucc m, .ofNat n => .negSucc (m ^^^ n)
  | .negSucc m, .negSucc n => .ofNat (m ^^^ n)

end Sys2Proof
end

