-- ==== Sys2Proof/WellFormed.lean ====
section
/-! DEFINITION. What a well-formed operand, instruction and instruction record is. An operand's integer is a value of
the machine's XLEN (spec/30_encoding.md R83, R84, R89), a record's tokens hold no white space and no character the
decoder refuses (R72, R86), and its source line is one numbered line (R70, R76). -/

namespace Sys2Proof

/-- An integer is a value of the given XLEN when `wrap` keeps it (spec/00_scope.md R16). -/
def valueWfAt (xlen : Option Nat) (v : Int) : Bool := wrapAt xlen v == v

/-- The integer of a direct or immediate operand is a value of the given XLEN (spec/30_encoding.md R89). -/
def Operand.wfAt (xlen : Option Nat) : Operand → Bool
  | .reg _ => true
  | .ind _ => true
  | .dir n => valueWfAt xlen n
  | .imm n => valueWfAt xlen n

/-- Both operands of an instruction are well formed at the given XLEN. -/
def Instr.wfAt (xlen : Option Nat) (i : Instr) : Bool := i.operand1.wfAt xlen && i.operand2.wfAt xlen

/-- A well-formed instruction: well formed at the machine's XLEN. -/
def Instr.wf (i : Instr) : Bool := i.wfAt Config.xlen

/-- An operand token the load accepts: no white space, no refused character (spec/30_encoding.md R72, R86). -/
def tokenWf (t : Text) : Bool := t.all fun c => !isSpace c && !isRefusedChar c

/-- A source line is a text without a line feed (spec/30_encoding.md R70). -/
def lineWf (l : Text) : Bool := l.all fun c => c != '\n'

/-- A well-formed instruction record: its operand tokens, its source line and its 1-based line number
(spec/10_state.md R27, spec/30_encoding.md R76, R79). -/
def InstrRecord.wf (r : InstrRecord) : Bool :=
  tokenWf r.operand1 && tokenWf r.operand2 && lineWf r.source && (1 ≤ r.lineNo : Bool)

end Sys2Proof
end

