-- ==== Sys2Proof/Decode.lean ====
section
/-! DEFINITION. The decoder (the source's "Parser"), total on every text and rejecting by name (spec/30_encoding.md R70 to
R96), the classifier of operand tokens (R80 to R86), then the encoder (an instruction as a source line, R95), the
diagnostic word and its display string (R90 to R92), and the table word the host asks about (log 1). -/

namespace Sys2Proof

/-- Why a load is rejected. -/
inductive DecodeReject where
  /-- An opcode token that is no mnemonic (spec/30_encoding.md R75): the line number and the token. -/
  | unknownOpcode (line : Nat) (token : Text)
  /-- An operand token with `_` or a non-ASCII character: the model's refusal (spec/30_encoding.md R86; safe). -/
  | ambiguousLiteral (line : Nat)
deriving DecidableEq, Repr

/-- What one source line is. -/
inductive LineResult where
  /-- a blank or comment line (spec/30_encoding.md R71) -/
  | dropped
  /-- an instruction -/
  | record (r : InstrRecord)
  /-- a line that ends the load -/
  | rejected (why : DecodeReject)
deriving DecidableEq, Repr

/-- What a source text is (spec/30_encoding.md R96). -/
inductive TextResult where
  | program (rs : List InstrRecord)
  | rejected (why : DecodeReject)
deriving DecidableEq, Repr

/-- What the descriptors of an instruction record's operand tokens are. -/
inductive RecordResult where
  | instr (i : Instr)
  | rejected (why : DecodeReject)
deriving DecidableEq, Repr

/-! ## Lines and tokens -/

/-- The lines of a text: split at each LF (spec/30_encoding.md R70, decision D3, log 15). -/
def splitLines : Text → List Text
  | [] => [[]]
  | c :: cs =>
    if c = '\n' then [] :: splitLines cs
    else match splitLines cs with
      | [] => [[c]]
      | l :: ls => (c :: l) :: ls

/-- A line without its leading and trailing white space (spec/30_encoding.md R71). -/
def strip (l : Text) : Text := ((l.dropWhile isSpace).reverse.dropWhile isSpace).reverse

/-- A stripped line that is empty or begins with `;` is dropped (spec/30_encoding.md R71). -/
def isDropped (l : Text) : Bool :=
  match strip l with
  | [] => true
  | c :: _ => c == ';'

/-- The tokens of a line: the maximal runs of non-white-space characters (spec/30_encoding.md R72). -/
def tokens : Text → List Text
  | [] => []
  | c :: cs =>
    if isSpace c then tokens cs
    else match cs.head?, tokens cs with
      | some d, t :: ts => if isSpace d then [c] :: t :: ts else (c :: t) :: ts
      | _, ts => [c] :: ts

/-! ## Opcodes -/

/-- ASCII case folding, `A`-`Z` to `a`-`z` (spec/30_encoding.md R74, decision D24, log 15). -/
def foldCase (c : Char) : Char :=
  if 65 ≤ c.toNat && c.toNat ≤ 90 then Char.ofNat (c.toNat + 32) else c

/-- The spelling of a mnemonic (spec/30_encoding.md R74). -/
def Mnemonic.name : Mnemonic → Text
  | .mov => ['m', 'o', 'v']
  | .add => ['a', 'd', 'd']
  | .sub => ['s', 'u', 'b']
  | .mul => ['m', 'u', 'l']
  | .div => ['d', 'i', 'v']
  | .jmp => ['j', 'm', 'p']
  | .jz => ['j', 'z']
  | .jnz => ['j', 'n', 'z']
  | .js => ['j', 's']
  | .jns => ['j', 'n', 's']
  | .and => ['a', 'n', 'd']
  | .or => ['o', 'r']
  | .xor => ['x', 'o', 'r']
  | .not => ['n', 'o', 't']
  | .cmp => ['c', 'm', 'p']
  | .inc => ['i', 'n', 'c']

/-- The 16 mnemonics in the source's order (spec/30_encoding.md R74, R92). -/
def Mnemonic.all : List Mnemonic :=
  [.mov, .add, .sub, .mul, .div, .jmp, .jz, .jnz, .js, .jns, .and, .or, .xor, .not, .cmp, .inc]

/-- The mnemonic an opcode token names, compared after case folding (spec/30_encoding.md R74). -/
def mnemonicOf? (token : Text) : Option Mnemonic :=
  Mnemonic.all.find? fun m => m.name == token.map foldCase

/-- The instruction of a mnemonic and two descriptors (spec/00_scope.md R5). -/
def Instr.build (m : Mnemonic) (o1 o2 : Operand) : Instr :=
  match m with
  | .mov => .mov o1 o2
  | .add => .add o1 o2
  | .sub => .sub o1 o2
  | .mul => .mul o1 o2
  | .div => .div o1 o2
  | .jmp => .jmp o1 o2
  | .jz => .jz o1 o2
  | .jnz => .jnz o1 o2
  | .js => .js o1 o2
  | .jns => .jns o1 o2
  | .and => .and o1 o2
  | .or => .or o1 o2
  | .xor => .xor o1 o2
  | .not => .not o1 o2
  | .cmp => .cmp o1 o2
  | .inc => .inc o1 o2

/-! ## Operands -/

/-- The spelling of a register's name (spec/10_state.md R21). -/
def Reg.name : Reg → Text
  | .eax => ['e', 'a', 'x']
  | .ebx => ['e', 'b', 'x']
  | .ecx => ['e', 'c', 'x']
  | .edx => ['e', 'd', 'x']

/-- The register a token names, compared case-sensitively (spec/30_encoding.md R81). -/
def regOf? (t : Text) : Option Reg := [Reg.eax, .ebx, .ecx, .edx].find? fun r => r.name == t

/-- The value of an ASCII decimal digit (spec/30_encoding.md R86). -/
def digit? (c : Char) : Option Nat :=
  if 48 ≤ c.toNat && c.toNat ≤ 57 then some (c.toNat - 48) else none

/-- The decimal value of a run of digits after the digits already read. -/
def digitsFrom : Nat → Text → Option Nat
  | acc, [] => some acc
  | acc, c :: cs =>
    match digit? c with
    | some d => digitsFrom (acc * 10 + d) cs
    | none => none

/-- One or more digits, read in decimal: `[0-9]+` (spec/30_encoding.md R86). -/
def natLiteral? (t : Text) : Option Nat := if t.isEmpty then none else digitsFrom 0 t

/-- An integer literal, `[+-]?[0-9]+` (spec/30_encoding.md R86, decision D2, log 7). -/
def intLiteral? (t : Text) : Option Int :=
  match t with
  | [] => none
  | c :: cs =>
    if c = '-' then (natLiteral? cs).map fun (n : Nat) => -(n : Int)
    else if c = '+' then (natLiteral? cs).map fun (n : Nat) => (n : Int)
    else (natLiteral? t).map fun (n : Nat) => (n : Int)

/-- What stands between `[` and a final `]` (spec/30_encoding.md R82, R83). -/
def bracketed? (t : Text) : Option Text :=
  match t with
  | [] => none
  | c :: cs => if c = '[' && cs.getLast? == some ']' then some cs.dropLast else none

/-- The descriptor of an operand token (spec/30_encoding.md R80): register mode R81, register-indirect mode R82, direct
mode R83, immediate mode R84, else `Imm(0)`, R85. -/
def classify (t : Text) : Operand :=
  match regOf? t with
  | some r => .reg r
  | none =>
    match bracketed? t with
    | some u =>
      match regOf? u with
      | some r => .ind r
      | none =>
        match intLiteral? u with
        | some n => .dir (wrap n)
        | none => .imm 0
    | none =>
      match intLiteral? t with
      | some n => .imm (wrap n)
      | none => .imm 0

/-- A token the load refuses: it holds `_` or a non-ASCII character (spec/30_encoding.md R86, log 7). -/
def isRefusedToken (t : Text) : Bool := t.any isRefusedChar

/-! ## Lines, texts, records -/

/-- A kept line with its tokens: the opcode is checked first, then operand1 and operand2 (spec/30_encoding.md R72 to R75,
R86; spec/60_exceptions.md R204). Tokens after the third are ignored; a missing operand is the empty token. -/
def decodeTokens (lineNo : Nat) (line : Text) (ts : List Text) : LineResult :=
  match ts with
  | [] => .dropped
  | op :: rest =>
    match mnemonicOf? op with
    | none => .rejected (.unknownOpcode lineNo op)
    | some m =>
      let o1 := rest.headD []
      let o2 := rest.tail.headD []
      if isRefusedToken o1 || isRefusedToken o2 then .rejected (.ambiguousLiteral lineNo)
      else .record { opcode := m, operand1 := o1, operand2 := o2, source := line, lineNo := lineNo }

/-- One physical line (spec/30_encoding.md R71, R72). -/
def decodeLine (lineNo : Nat) (line : Text) : LineResult :=
  if isDropped line then .dropped else decodeTokens lineNo line (tokens (strip line))

/-- The lines from line `n` on, in text order; the first bad line ends the load (spec/30_encoding.md R75, R76;
spec/60_exceptions.md R204). -/
def decodeLines : Nat → List Text → TextResult
  | _, [] => .program []
  | n, l :: ls =>
    match decodeLine n l with
    | .rejected why => .rejected why
    | .dropped => decodeLines (n + 1) ls
    | .record r =>
      match decodeLines (n + 1) ls with
      | .program rs => .program (r :: rs)
      | .rejected why => .rejected why

/-- The decoder (spec/30_encoding.md R96): total on every text. -/
def decodeText (t : Text) : TextResult := decodeLines 1 (splitLines t)

/-- The instruction of a record: its mnemonic and the descriptors of its two tokens (spec/30_encoding.md R80, R87). A
record with a refused token is in no program a load installs (R86); it has no meaning here either. -/
def decodeRecord (r : InstrRecord) : RecordResult :=
  if isRefusedToken r.operand1 || isRefusedToken r.operand2 then .rejected (.ambiguousLiteral r.lineNo)
  else .instr (Instr.build r.opcode (classify r.operand1) (classify r.operand2))

/-! ## The encoder -/

/-- The ASCII digit of a number below 10. -/
def digitChar (d : Nat) : Char := Char.ofNat (48 + d)

/-- The decimal digits of `n`, before the text `acc`; `fuel` bounds their count. -/
def decimalFrom : Nat → Nat → Text → Text
  | 0, _, acc => acc
  | fuel + 1, n, acc =>
    if n < 10 then digitChar n :: acc else decimalFrom fuel (n / 10) (digitChar (n % 10) :: acc)

/-- A natural number in decimal. -/
def natText (n : Nat) : Text := decimalFrom (n + 1) n []

/-- An integer literal with the value `v` (spec/30_encoding.md R86). -/
def intText (v : Int) : Text := if v < 0 then '-' :: natText v.natAbs else natText v.natAbs

/-- A token of the descriptor's shape (spec/30_encoding.md R81 to R84, R95). -/
def Operand.token : Operand → Text
  | .reg r => r.name
  | .ind r => '[' :: (r.name ++ [']'])
  | .dir n => '[' :: (intText n ++ [']'])
  | .imm n => intText n

/-- An instruction as a source line, `mnemonic operand1 operand2` (spec/30_encoding.md R95). -/
def encode (i : Instr) : Text :=
  i.mnemonic.name ++ ' ' :: (i.operand1.token ++ ' ' :: i.operand2.token)

/-- The record the decoder makes of `encode i` on line `n` (spec/30_encoding.md R79). -/
def encodeRecord (n : Nat) (i : Instr) : InstrRecord :=
  { opcode := i.mnemonic, operand1 := i.operand1.token, operand2 := i.operand2.token, source := encode i, lineNo := n }

/-- A program as a source text, one instruction a line (spec/30_encoding.md R95). -/
def encodeProgram : List Instr → Text
  | [] => []
  | [i] => encode i
  | i :: is => encode i ++ '\n' :: encodeProgram is

/-- The records of `encodeProgram is` whose first line has number `n`. -/
def encodeRecords : Nat → List Instr → List InstrRecord
  | _, [] => []
  | n, i :: is => encodeRecord n i :: encodeRecords (n + 1) is

/-! ## The diagnostic word -/

/-- The 4-bit opcode code (spec/30_encoding.md R92, decision D7, log 13). -/
def Mnemonic.code : Mnemonic → BitVec 4
  | .mov => 0
  | .add => 1
  | .sub => 2
  | .mul => 3
  | .div => 4
  | .jmp => 5
  | .jz => 6
  | .jnz => 7
  | .js => 8
  | .jns => 9
  | .and => 10
  | .or => 11
  | .xor => 12
  | .not => 13
  | .cmp => 14
  | .inc => 15

/-- The diagnostic word: the code in bits 39 to 36, then the two placeholder fields (spec/30_encoding.md R90, decision
D8, log 13). The operands are not in it. -/
def diagWord (i : Instr) : BitVec 40 := i.mnemonic.code ++ Config.placeholder1 ++ Config.placeholder2

/-- The low `n` bits of a number as `0`/`1` characters, most significant first. -/
def bitText : Nat → Nat → Text
  | 0, _ => []
  | n + 1, w => (if w / 2 ^ n % 2 = 1 then '1' else '0') :: bitText n w

/-- The display string: the 40 characters of the diagnostic word (spec/30_encoding.md R91). -/
def displayString (i : Instr) : Text := bitText 40 (diagWord i).toNat

/-- The mnemonic with a 4-bit code (spec/30_encoding.md R92: all 16 codes are assigned). -/
def mnemonicOfCode? (c : Nat) : Option Mnemonic := Mnemonic.all.find? fun m => m.code.toNat == c

/-- The source line that stands for a table word: the word's mnemonic and no operands. The word holds an opcode code in
bits 39 to 36 and no operand (spec/30_encoding.md R90); its other bits are masked off by the table (log 1). -/
def tableLine (nbits w : Nat) : Option Text :=
  let v := w % 2 ^ nbits
  if v < 2 ^ 40 then (mnemonicOfCode? (v / 2 ^ 36)).map Mnemonic.name else none

/-- The record the decoder makes of a table word's line, as line 1 of a text. -/
def tableRecord (nbits w : Nat) : Option InstrRecord :=
  match tableLine nbits w with
  | none => none
  | some l =>
    match decodeLine 1 l with
    | .record r => some r
    | .dropped => none
    | .rejected _ => none

/-- The instruction the decoder reads from a table word's line (log 1). -/
def decodeTableWord (nbits w : Nat) : Option Instr :=
  match tableRecord nbits w with
  | none => none
  | some r =>
    match decodeRecord r with
    | .instr i => some i
    | .rejected _ => none

end Sys2Proof
end

