-- ==== Sys2Proof/Machine/State.lean ====
section
/-! DEFINITION. The state of EMU-16: the one record of spec/10_state.md (R20 to R31), plain data, and its reset value
(spec/70_reset_and_hazards.md R230); the reasons of a failure and of a refusal. -/

namespace Sys2Proof.Machine

open Sys2Proof

/-- The reasons for which a step fails (spec/10_state.md R31, spec/40_cycle.md R107: "a model has no other failure
constructor"). A failed step has a specified next state (R101, R106), so no step answers `Host.Outcome.fault`: the
reason stands in `State.lastError` and in the step's outcome `Failed(reason)` (log 4). -/
inductive Fault where
  /-- Raised by the fetch of a step at a negative `pc` (spec/40_cycle.md R101, spec/60_exceptions.md R202). Safe: where the
  original program might run on from a negative index, the machine stops (decision D6, log 6). -/
  | invalidPc
deriving DecidableEq, Repr

/-- The reasons for which the model gives no meaning. -/
inductive Refusal where
  /-- Raised by an arm of `exec` for an instruction without a meaning yet; no arm does. Safe. -/
  | notModelled (mnemonic : String)
  /-- Raised by a load of a text with an operand token that holds `_` or a non-ASCII character, and by the fetch of a
  record with such a token, which no load installs (spec/30_encoding.md R86, spec/70_reset_and_hazards.md R232). Safe:
  the model gives the program no meaning (log 7). -/
  | ambiguousLiteral (line : Nat)
deriving DecidableEq, Repr

/-- The register file (spec/10_state.md R20). -/
structure Regs where
  eax : Int
  ebx : Int
  ecx : Int
  edx : Int
deriving DecidableEq, Repr

/-- Data memory: a finite partial map from addresses to values (spec/20_memory.md R51), as the list of its (address,
value) pairs with addresses strictly rising. An address that is not listed has no key and reads 0 (R53). A cell written
with 0 keeps its key, which the snapshot shows (R52, log 3). -/
abbrev Memory := List (Nat × Int)

/-- The addresses of a memory's keys. -/
abbrev Memory.keys (m : Memory) : List Nat := m.map Prod.fst

/-- The canonical form: keys strictly rising, all in `[0, 4096)` (spec/20_memory.md R51). -/
abbrev Memory.wf (m : Memory) : Prop :=
  (Memory.keys m).Pairwise (· < ·) ∧ ∀ k ∈ Memory.keys m, k < Config.memSize

/-- The machine's state (spec/10_state.md). -/
structure State where
  /-- `x[eax..edx]` (R20) -/
  regs      : Regs
  /-- the zero flag (R22) -/
  zf        : Bool
  /-- the sign flag (R22) -/
  sf        : Bool
  /-- data memory (spec/20_memory.md R51) -/
  mem       : Memory
  /-- the installed program (R27) -/
  program   : List InstrRecord
  /-- the program counter, an index into `program`; any integer (R24, R26) -/
  pc        : Int
  /-- the instruction register, absent until the first fetch (R28) -/
  ir        : Option InstrRecord
  /-- the execution counter (R29) -/
  executed  : Nat
  /-- running (R30) -/
  running   : Bool
  /-- the reason of the last failure (R31) -/
  lastError : Option Fault
deriving DecidableEq, Repr

/-- The reset state (spec/70_reset_and_hazards.md R230; `ir`, `executed` and `lastError` by decision D21, log 12). -/
def State.reset : State :=
  { regs := { eax := 0, ebx := 0, ecx := 0, edx := 0 }
    zf := false
    sf := false
    mem := []
    program := []
    pc := 0
    ir := none
    executed := 0
    running := false
    lastError := none }

end Sys2Proof.Machine
end

