-- ==== Sys2Proof/Machine/Ops.lean ====
section
/-! DEFINITION. The named operations over registers, memory and the program counter, and the taking of a failure.
There is no trap entry and no trap return on this machine (spec/60_exceptions.md R205, R206): `takeFailure` is what a
failing step does instead, and the only ways back are the host's reset and load (Machine/Interface.lean). -/

namespace Sys2Proof.Machine

open Sys2Proof

/-! ## Registers -/

/-- The value of a register of the file. -/
def Regs.get (x : Regs) : Reg → Int
  | .eax => x.eax
  | .ebx => x.ebx
  | .ecx => x.ecx
  | .edx => x.edx

/-- The file with one register replaced. -/
def Regs.set (x : Regs) (r : Reg) (v : Int) : Regs :=
  match r with
  | .eax => { x with eax := v }
  | .ebx => { x with ebx := v }
  | .ecx => { x with ecx := v }
  | .edx => { x with edx := v }

/-- `x[r]` (spec/00_scope.md R14). -/
def readReg (s : State) (r : Reg) : Int := s.regs.get r

/-- `x[r] <- v` (spec/00_scope.md R14). -/
def writeReg (s : State) (r : Reg) (v : Int) : State := { s with regs := s.regs.set r v }

/-! ## Memory -/

/-- The acceptance window `0 <= a < 4096` (spec/20_memory.md R51, R61). -/
def inRange (a : Int) : Bool := 0 ≤ a && a < (Config.memSize : Int)

/-- The value under a key, if the key is there. -/
def Memory.lookup : Memory → Nat → Option Int
  | [], _ => none
  | (k, v) :: m, a => if k = a then some v else Memory.lookup m a

/-- The map with the key `a` holding `v`. The value 0 is stored like any other (spec/20_memory.md R52, log 3). -/
def Memory.insert : Memory → Nat → Int → Memory
  | [], a, v => [(a, v)]
  | (k, w) :: m, a, v =>
    if a < k then (a, v) :: (k, w) :: m
    else if a = k then (a, v) :: m
    else (k, w) :: Memory.insert m a v

/-- `MemRead(a, 1)`: 0 for an unwritten cell and for every address out of range (spec/20_memory.md R53). -/
def memRead (s : State) (a : Int) : Int :=
  if inRange a then (Memory.lookup s.mem a.toNat).getD 0 else 0

/-- `MemWrite(a, 1, v)`: dropped without any effect when out of range (spec/20_memory.md R54, R55). -/
def memWrite (s : State) (a : Int) (v : Int) : State :=
  if inRange a then { s with mem := Memory.insert s.mem a.toNat (wrap v) } else s

/-! ## Program counter -/

/-- The redirection of a taken jump: `pc <- t - 1`, which the step's increment turns into `t` (spec/45_control.md R180). -/
def redirect (t : Int) (s : State) : State := { s with pc := t - 1 }

/-! ## Failure -/

/-- What a failing step writes: `running <- false; lastError <- reason`, all else kept (spec/40_cycle.md R101, R106;
spec/60_exceptions.md R205: no state saved, no transfer of control). -/
def takeFailure (reason : Fault) (s : State) : State := { s with running := false, lastError := some reason }

end Sys2Proof.Machine
end

