-- ==== Sys2Proof/Machine/Operands.lean ====
section
/-! DEFINITION. The addressing-mode resolver (spec/41_operands.md R120 to R128): the place a descriptor names in a state,
and the read and the write of that place. No descriptor's read or write can fail (R127). -/

namespace Sys2Proof.Machine

open Sys2Proof

/-- The storage location an operand names. -/
inductive Place where
  /-- a register (spec/41_operands.md R122) -/
  | register (r : Reg)
  /-- a data-memory cell, in range or not (R124, R125) -/
  | cell (a : Int)
  /-- no location: an immediate's value (R126) -/
  | literal (n : Int)
deriving DecidableEq, Repr

/-- The place a descriptor names: the address of `Ind(r)` is `x[r]` as it is now, with no offset, scale or modification
of `r` (spec/41_operands.md R123); that of `Dir(n)` is `n` (R125). -/
def resolve (o : Operand) (s : State) : Place :=
  match o with
  | .reg r => .register r
  | .ind r => .cell (readReg s r)
  | .dir n => .cell n
  | .imm n => .literal n

/-- The read of a place (spec/41_operands.md R120). -/
def readPlace (p : Place) (s : State) : Int :=
  match p with
  | .register r => readReg s r
  | .cell a => memRead s a
  | .literal n => n

/-- The write of a place (spec/41_operands.md R121): nothing for an immediate (R126). -/
def writePlace (p : Place) (v : Int) (s : State) : State :=
  match p with
  | .register r => writeReg s r (wrap v)
  | .cell a => memWrite s a v
  | .literal _ => s

/-- `Read(op)` (spec/41_operands.md R120). -/
def readOp (o : Operand) (s : State) : Int := readPlace (resolve o s) s

/-- `Write(op, v)` (spec/41_operands.md R121). -/
def writeOp (o : Operand) (v : Int) (s : State) : State := writePlace (resolve o s) v s

end Sys2Proof.Machine
end

