-- ==== Sys2Proof/Machine/Flags.lean ====
section
/-! DEFINITION. The one flag computation (spec/43_arithmetic.md R150) and the four conditions that read the flags
(spec/45_control.md R182 to R185). -/

namespace Sys2Proof.Machine

open Sys2Proof

/-- `SetFlags(r)`: `ZF <- (r == 0); SF <- (r < 0)` (spec/43_arithmetic.md R150). -/
def setFlags (r : Int) (s : State) : State := { s with zf := r == 0, sf := decide (r < 0) }

/-- A conditional jump: the redirection to `t` when the condition holds, nothing when not (spec/45_control.md R180). -/
def redirectIf (taken : Bool) (t : Int) (s : State) : State := if taken then redirect t s else s

end Sys2Proof.Machine
end

