-- ==== Sys2Proof/Machine/Arithmetic.lean ====
section
/-! DEFINITION. Arithmetic and compare (spec/43_arithmetic.md): only `add`, `sub` and `cmp` write the flags. Every
operand is read before the destination is written, and the flags are written last (spec/40_cycle.md R111). -/

namespace Sys2Proof.Machine

open Sys2Proof

/-- `add d s`: `a <- Read(o1); b <- Read(o2); r <- wrap(a + b); Write(o1, r); SetFlags(r)` (spec/43_arithmetic.md R151). -/
def execAdd (d s : Operand) (st : State) : Host.Outcome State Fault Refusal :=
  let r := wrap (readOp d st + readOp s st)
  .next (setFlags r (writeOp d r st))

/-- `sub d s`: the destination minus the source (spec/43_arithmetic.md R152). -/
def execSub (d s : Operand) (st : State) : Host.Outcome State Fault Refusal :=
  let r := wrap (readOp d st - readOp s st)
  .next (setFlags r (writeOp d r st))

/-- `mul d s`: no flag update (spec/43_arithmetic.md R153). -/
def execMul (d s : Operand) (st : State) : Host.Outcome State Fault Refusal :=
  .next (writeOp d (wrap (readOp d st * readOp s st)) st)

/-- `div d s`: truncating toward zero; a divisor of 0 is a silent no-op (spec/43_arithmetic.md R154). -/
def execDiv (d s : Operand) (st : State) : Host.Outcome State Fault Refusal :=
  if readOp s st = 0 then .next st
  else .next (writeOp d (wrap (tdiv (readOp d st) (readOp s st))) st)

/-- `inc d`: no flag update; operand2 is never read (spec/43_arithmetic.md R155). -/
def execInc (d _u : Operand) (st : State) : Host.Outcome State Fault Refusal :=
  .next (writeOp d (wrap (readOp d st + 1)) st)

/-- `cmp a b`: the flags of `a - b`, nothing written (spec/43_arithmetic.md R156). -/
def execCmp (a b : Operand) (st : State) : Host.Outcome State Fault Refusal :=
  .next (setFlags (wrap (readOp a st - readOp b st)) st)

end Sys2Proof.Machine
end

