-- ==== Sys2Proof/Machine/Control.lean ====
section
/-! DEFINITION. The five jumps (spec/45_control.md): the target is read through the resolver and is an absolute program
index, unchecked (R180); operand2 is never read; no flag is written. -/

namespace Sys2Proof.Machine

open Sys2Proof

/-- `jmp t` (spec/45_control.md R181). -/
def execJmp (t _u : Operand) (st : State) : Host.Outcome State Fault Refusal :=
  .next (redirect (readOp t st) st)

/-- `jz t`: taken if `ZF == 1` (spec/45_control.md R182). -/
def execJz (t _u : Operand) (st : State) : Host.Outcome State Fault Refusal :=
  .next (redirectIf st.zf (readOp t st) st)

/-- `jnz t`: taken if `ZF == 0` (spec/45_control.md R183). -/
def execJnz (t _u : Operand) (st : State) : Host.Outcome State Fault Refusal :=
  .next (redirectIf (!st.zf) (readOp t st) st)

/-- `js t`: taken if `SF == 1` (spec/45_control.md R184). -/
def execJs (t _u : Operand) (st : State) : Host.Outcome State Fault Refusal :=
  .next (redirectIf st.sf (readOp t st) st)

/-- `jns t`: taken if `SF == 0` (spec/45_control.md R185). -/
def execJns (t _u : Operand) (st : State) : Host.Outcome State Fault Refusal :=
  .next (redirectIf (!st.sf) (readOp t st) st)

end Sys2Proof.Machine
end

