-- ==== Sys2Proof/Machine/Logic.lean ====
section
/-! DEFINITION. Bitwise logic on two's-complement integers (spec/44_logic.md R170): none of the four writes a flag. -/

namespace Sys2Proof.Machine

open Sys2Proof

/-- `and d s` (spec/44_logic.md R171). -/
def execAnd (d s : Operand) (st : State) : Host.Outcome State Fault Refusal :=
  .next (writeOp d (band (readOp d st) (readOp s st)) st)

/-- `or d s` (spec/44_logic.md R172). -/
def execOr (d s : Operand) (st : State) : Host.Outcome State Fault Refusal :=
  .next (writeOp d (bor (readOp d st) (readOp s st)) st)

/-- `xor d s` (spec/44_logic.md R173). -/
def execXor (d s : Operand) (st : State) : Host.Outcome State Fault Refusal :=
  .next (writeOp d (bxor (readOp d st) (readOp s st)) st)

/-- `not d`: operand2 is never read (spec/44_logic.md R174). -/
def execNot (d _u : Operand) (st : State) : Host.Outcome State Fault Refusal :=
  .next (writeOp d (bnot (readOp d st)) st)

end Sys2Proof.Machine
end

