-- ==== Sys2Proof/Machine/Move.lean ====
section
/-! DEFINITION. Data movement (spec/42_move.md). Like every meaning of the machine, the execute part of a step only: the
`pc` advance and the count follow it in the step (spec/40_cycle.md R103). -/

namespace Sys2Proof.Machine

open Sys2Proof

/-- `mov d s`: `v <- Read(o2); Write(o1, v)` (spec/42_move.md R140). -/
def execMov (d s : Operand) (st : State) : Host.Outcome State Fault Refusal :=
  .next (writeOp d (readOp s st) st)

end Sys2Proof.Machine
end

