-- ==== Sys2Proof/Machine/Dispatch.lean ====
section
/-! DEFINITION. The dispatch: an exhaustive match over the 16 mnemonics, no default arm (spec/40_cycle.md R104). -/

namespace Sys2Proof.Machine

open Sys2Proof

def exec (i : Instr) (s : State) : Host.Outcome State Fault Refusal :=
  match i with
  | .mov a b => Sys2Proof.Machine.execMov a b s
  | .add a b => Sys2Proof.Machine.execAdd a b s
  | .sub a b => Sys2Proof.Machine.execSub a b s
  | .mul a b => Sys2Proof.Machine.execMul a b s
  | .div a b => Sys2Proof.Machine.execDiv a b s
  | .jmp a b => Sys2Proof.Machine.execJmp a b s
  | .jz a b => Sys2Proof.Machine.execJz a b s
  | .jnz a b => Sys2Proof.Machine.execJnz a b s
  | .js a b => Sys2Proof.Machine.execJs a b s
  | .jns a b => Sys2Proof.Machine.execJns a b s
  | .and a b => Sys2Proof.Machine.execAnd a b s
  | .or a b => Sys2Proof.Machine.execOr a b s
  | .xor a b => Sys2Proof.Machine.execXor a b s
  | .not a b => Sys2Proof.Machine.execNot a b s
  | .cmp a b => Sys2Proof.Machine.execCmp a b s
  | .inc a b => Sys2Proof.Machine.execInc a b s

end Sys2Proof.Machine
end

