-- ==== Sys2Proof/Machine/Cycle.lean ====
section
/-! DEFINITION. The execution cycle (spec/40_cycle.md R100 to R112): the step with its outcome. -/

namespace Sys2Proof.Machine

open Sys2Proof

/-- The outcome of a step (spec/40_cycle.md, `StepOutcome`; R108). -/
inductive StepOutcome where
  /-- an instruction executed -/
  | continued
  /-- the halted condition held; nothing executed -/
  | halted
  /-- the step failed; nothing executed -/
  | failed (reason : Fault)
deriving DecidableEq, Repr

/-- The halted condition, `not running or pc >= len(program)` (spec/40_cycle.md R100). -/
def haltedCondition (s : State) : Bool := !s.running || decide ((s.program.length : Int) ≤ s.pc)

/-- The one effect of a step in the halted condition (spec/40_cycle.md R100). -/
def haltStep (s : State) : State := { s with running := false }

/-- The record a step fetches: the one at `pc`, if `pc` is an index of the program (spec/40_cycle.md R102). -/
def fetch (s : State) : Option InstrRecord := if 0 ≤ s.pc then s.program[s.pc.toNat]? else none

/-- The fetch's effect: the fetched record is the instruction register (spec/40_cycle.md R102). -/
def latch (r : InstrRecord) (s : State) : State := { s with ir := some r }

/-- The end of a step: `pc <- pc + 1; executed <- executed + 1` (spec/40_cycle.md R103). -/
def advance (s : State) : State := { s with pc := s.pc + 1, executed := s.executed + 1 }

/-- Execute and advance: the arm of the record's instruction, then the end of the step (spec/40_cycle.md R103). A record
without an instruction is in no program a load installs (spec/30_encoding.md R86): it is refused by name (log 7). -/
def executeRecord (r : InstrRecord) (s : State) : Host.Outcome (StepOutcome × State) Fault Refusal :=
  match decodeRecord r with
  | .instr i =>
    match exec i s with
    | .next t => .next (.continued, advance t)
    | .fault f => .fault f
    | .refused w => .refused w
  | .rejected (.ambiguousLiteral n) => .refused (.ambiguousLiteral n)
  | .rejected (.unknownOpcode n _) => .refused (.ambiguousLiteral n)

/-- The whole step (spec/40_cycle.md R105; priority spec/60_exceptions.md R204): the halted check, the invalid-pc check,
then fetch, execute and advance. Where neither check holds, `fetch` answers a record (`fetch_isSome`). -/
def stepCall (s : State) : Host.Outcome (StepOutcome × State) Fault Refusal :=
  if haltedCondition s then .next (.halted, haltStep s)
  else if s.pc < 0 then .next (.failed .invalidPc, takeFailure .invalidPc s)
  else
    match fetch s with
    | some r => executeRecord r (latch r s)
    | none => .next (.halted, haltStep s)

/-- The state a step leaves, whatever its outcome (log 4). -/
def stepState (o : Host.Outcome (StepOutcome × State) Fault Refusal) : Host.Outcome State Fault Refusal :=
  match o with
  | .next r => .next r.2
  | .fault f => .fault f
  | .refused w => .refused w

/-- A program that holds the record at the index `pc` and the state fetches it next: the record at `pc` is replaced where
`pc` is an index of the program, else the record is the whole program and `pc` is 0 (log 2). -/
def placeRecord (r : InstrRecord) (s : State) : State :=
  if 0 ≤ s.pc ∧ s.pc < (s.program.length : Int) then
    { s with program := s.program.set s.pc.toNat r, running := true }
  else { s with program := [r], pc := 0, running := true }

end Sys2Proof.Machine
end

