-- ==== Sys2Proof/Machine/Step.lean ====
section
/-! DEFINITION. One step of the machine. A halted step and a failed step answer the next state the spec gives them
(spec/40_cycle.md R100, R101); which of the three outcomes a step had is `stepCall`'s answer (log 4). -/

namespace Sys2Proof.Machine

open Sys2Proof

/-- One step (spec/40_cycle.md R105). -/
def step (s : State) : Host.Outcome State Fault Refusal := stepState (stepCall s)

/-- The state with a table word's line installed as the instruction the next step fetches and runs (log 1, log 2). It stands
for the load from outside the machine; a word of no row changes nothing. -/
def State.withFetchWord (s : State) (nbits w : Nat) : State :=
  match tableRecord nbits w with
  | some r => placeRecord r s
  | none => s

end Sys2Proof.Machine
end

