-- ==== Sys2Proof/Machine/Interface.lean ====
section
/-! DEFINITION. What the host can do: the seven calls of spec/60_exceptions.md R220, the bounded run driver (R215 to R218),
load and reset (spec/70_reset_and_hazards.md R230 to R235), the pokes (spec/20_memory.md R68), the snapshot
(spec/10_state.md R36), the executor state machine (R33) and the closed set of outcomes (spec/60_exceptions.md R200). -/

namespace Sys2Proof.Machine

open Sys2Proof

/-! ## Outcomes -/

/-- The closed set of outcomes and error kinds (spec/60_exceptions.md R200). -/
inductive OutcomeKind where
  | continued
  | halted
  | failed (reason : Fault)
  | unknownOpcode (line : Nat) (token : Text)
  | limitExceeded (stepsExecuted : Nat)
  | ambiguousLiteral (line : Nat)
deriving DecidableEq, Repr

/-- The code of an outcome on a status port (spec/60_exceptions.md R200, decision D26, log 20). -/
def OutcomeKind.code : OutcomeKind → Nat
  | .continued => 0
  | .halted => 1
  | .failed _ => 2
  | .unknownOpcode _ _ => 3
  | .limitExceeded _ => 4
  | .ambiguousLiteral _ => 5

/-- A step's outcome among R200's. -/
def StepOutcome.kind : StepOutcome → OutcomeKind
  | .continued => .continued
  | .halted => .halted
  | .failed r => .failed r

/-- The human-readable text of a failure: unconstrained but for naming the offending token where there is one
(spec/60_exceptions.md R223, spec/70_reset_and_hazards.md R232; log 11). -/
def messageText (code line : Nat) (token : Text) : Text :=
  Config.messageHead code line token ++ token ++ Config.messageTail code line token

/-- The message of an outcome. -/
def OutcomeKind.message (k : OutcomeKind) : Text :=
  match k with
  | .unknownOpcode line token => messageText k.code line token
  | .ambiguousLiteral line => messageText k.code line []
  | .continued | .halted | .failed _ | .limitExceeded _ => messageText k.code 0 []

/-! ## Executor states -/

/-- The executor state machine's states (spec/10_state.md R33). -/
inductive ExecutorState where
  | idle | running | halted | failed
deriving DecidableEq, Repr

/-- No program is installed and the machine is not running: the state after reset, whatever the host has poked into its
memory since (spec/00_scope.md glossary "Idle", spec/10_state.md R33). -/
def isIdle (s : State) : Bool := s.program.isEmpty && !s.running

/-- The executor state as a function of the fields (spec/10_state.md R33, spec/60_exceptions.md R207; a loaded program
without instructions, log 10). -/
def executorState (s : State) : ExecutorState :=
  if s.lastError.isSome then .failed
  else if isIdle s then .idle
  else if haltedCondition s then .halted
  else .running

/-! ## Snapshot -/

/-- What `snapshot()` shows (spec/10_state.md R36). -/
structure Snapshot where
  registers           : Regs
  zero                : Bool
  sign                : Bool
  memory              : Memory
  pc                  : Int
  instructionRegister : Option InstrRecord
  executedCount       : Nat
  running             : Bool
  lastError           : Option Fault
deriving DecidableEq, Repr

/-- The snapshot of a state (spec/10_state.md R36). -/
def snapshot (s : State) : Snapshot :=
  { registers := s.regs, zero := s.zf, sign := s.sf, memory := s.mem, pc := s.pc, instructionRegister := s.ir,
    executedCount := s.executed, running := s.running, lastError := s.lastError }

/-! ## Pokes, reset, load -/

/-- `setMemory(addr, value)` (spec/20_memory.md R68). -/
def setMemory (a : Int) (v : Int) (s : State) : State := memWrite s a v

/-- `getMemory(addr)` (spec/20_memory.md R68). -/
def getMemory (a : Int) (s : State) : Int := memRead s a

/-- `reset()` from any state (spec/70_reset_and_hazards.md R230). -/
def resetCall (_s : State) : State := State.reset

/-- The installation of a decoded program over a reset machine (spec/70_reset_and_hazards.md R232). -/
def install (rs : List InstrRecord) (s : State) : State :=
  { resetCall s with program := rs, pc := 0, running := true }

/-- What a load answers (spec/60_exceptions.md R220). -/
inductive LoadResponse where
  /-- `ok: true` with the instruction count -/
  | loaded (instructionCount : Nat)
  /-- `ok: false` with the line, the structured reason's token (decision D15) and the message -/
  | rejected (line : Nat) (token : Text) (message : Text)
deriving DecidableEq, Repr

/-- `loadProgram(sourceText)` (spec/70_reset_and_hazards.md R232, R233, R234): reset, decode, install. An unknown opcode
leaves the reset state; a refused literal gives the text no meaning (log 7). -/
def loadProgram (text : Text) (s : State) : Host.Outcome (LoadResponse × State) Fault Refusal :=
  match decodeText text with
  | .program rs => .next (.loaded rs.length, install rs s)
  | .rejected (.unknownOpcode line token) =>
    .next (.rejected line token (OutcomeKind.unknownOpcode line token).message, resetCall s)
  | .rejected (.ambiguousLiteral line) => .refused (.ambiguousLiteral line)

/-! ## The bounded run driver -/

/-- What `runAuto` answers (spec/60_exceptions.md R215; conflict C3: both results carry the count). -/
inductive RunResponse where
  | completed (stepsExecuted : Nat)
  | limitExceeded (stepsExecuted : Nat)
deriving DecidableEq, Repr

/-- The driver's loop with `budget` calls left and `n` steps continued so far (spec/60_exceptions.md R216): the halted
condition is tested before the budget, the budget before the step. -/
def runLoop : Nat → Nat → State → Host.Outcome (RunResponse × State) Fault Refusal
  | budget, n, s =>
    if haltedCondition s then .next (.completed n, s)
    else match budget with
      | 0 => .next (.limitExceeded n, s)
      | budget + 1 =>
        match stepCall s with
        | .next (.continued, t) => runLoop budget (n + 1) t
        | .next (.halted, t) => runLoop budget n t
        | .next (.failed _, t) => runLoop budget n t
        | .fault f => .fault f
        | .refused w => .refused w

/-- `runAuto(maxSteps)`: a budget of 0 or less acts as 0 (spec/60_exceptions.md R216). -/
def runAuto (maxSteps : Int) (s : State) : Host.Outcome (RunResponse × State) Fault Refusal :=
  runLoop maxSteps.toNat 0 s

/-! ## The outcomes of a load and of a run among R200's -/

/-- The error kind of a load's answer, if it is one. -/
def LoadResponse.kind? : LoadResponse → Option OutcomeKind
  | .loaded _ => none
  | .rejected line token _ => some (.unknownOpcode line token)

/-- The error kind of a run's answer, if it is one. -/
def RunResponse.kind? : RunResponse → Option OutcomeKind
  | .completed _ => none
  | .limitExceeded n => some (.limitExceeded n)

/-! ## The seven calls -/

/-- A host call (spec/60_exceptions.md R220). -/
inductive HostCall where
  | loadProgram (text : Text)
  | step
  /-- `none` is a call without the argument: the default budget (R215) -/
  | runAuto (maxSteps : Option Int)
  | reset
  | snapshot
  | setMemory (a : Int) (v : Int)
  | getMemory (a : Int)
deriving DecidableEq, Repr

/-- What a call returns (spec/60_exceptions.md R220). -/
inductive Response where
  | load (r : LoadResponse)
  | continued
  | halted
  | failed (reason : Fault) (message : Text)
  | run (r : RunResponse)
  | nothing
  | snapshot (s : Snapshot)
  | value (v : Int)
deriving DecidableEq, Repr

/-- The response to a step (spec/60_exceptions.md R220). -/
def StepOutcome.response : StepOutcome → Response
  | .continued => .continued
  | .halted => .halted
  | .failed r => .failed r (OutcomeKind.failed r).message

/-- A call's answer with its response and state mapped. -/
def respond {α : Type} (f : α → Response) (o : Host.Outcome (α × State) Fault Refusal) :
    Host.Outcome (Response × State) Fault Refusal :=
  match o with
  | .next (r, s) => .next (f r, s)
  | .fault e => .fault e
  | .refused w => .refused w

/-- One host call, from its begin to its end: calls are atomic and never nest (spec/60_exceptions.md R222, log 17). -/
def call (c : HostCall) (s : State) : Host.Outcome (Response × State) Fault Refusal :=
  match c with
  | .loadProgram text => respond .load (loadProgram text s)
  | .step => respond StepOutcome.response (stepCall s)
  | .runAuto (some n) => respond .run (runAuto n s)
  | .runAuto none => respond .run (runAuto Config.maxStepsDefault s)
  | .reset => .next (.nothing, resetCall s)
  | .snapshot => .next (.snapshot (snapshot s), s)
  | .setMemory a v => .next (.nothing, setMemory a v s)
  | .getMemory a => .next (.value (getMemory a s), s)

/-- A sequence of calls, in any order (spec/60_exceptions.md R221): the responses and the last state; the first refusal
ends it. -/
def calls : List HostCall → State → Host.Outcome (List Response × State) Fault Refusal
  | [], s => .next ([], s)
  | c :: cs, s =>
    match call c s with
    | .next (r, t) =>
      match calls cs t with
      | .next (rs, u) => .next (r :: rs, u)
      | .fault e => .fault e
      | .refused w => .refused w
    | .fault e => .fault e
    | .refused w => .refused w

end Sys2Proof.Machine
end

