-- ==== Sys2Proof/Safety.lean ====
section
/-! DEFINITION. The terms the claims use: what an instruction leaves unchanged, what a write of a place does, when a jump is
taken, a run of continued steps, what a program can observe, the invariant of the machine and its reachable states. -/

namespace Sys2Proof.Machine

open Sys2Proof

/-! ## Frames -/

/-- The flags are unchanged. -/
def SameFlags (s t : State) : Prop := t.zf = s.zf ∧ t.sf = s.sf

/-- Program, instruction register, counter, `running` and `lastError` are unchanged: no instruction names them
(spec/10_state.md R32). -/
def SameControl (s t : State) : Prop :=
  t.program = s.program ∧ t.ir = s.ir ∧ t.executed = s.executed ∧ t.running = s.running ∧ t.lastError = s.lastError

/-- Every register and all of memory, its key set included, are unchanged. -/
def SameData (s t : State) : Prop := (∀ r, readReg t r = readReg s r) ∧ t.mem = s.mem

/-- The value `v` is written to the place `p` and nowhere else: of the registers and of the memory (by the read of each
address, and by the value under each key), only the place changes, and a place that is an immediate or an address outside
`[0, 4096)` takes nothing (spec/41_operands.md R121, spec/20_memory.md R54). -/
def WritesPlace (p : Place) (v : Int) (s t : State) : Prop :=
  (∀ r, readReg t r = if p = .register r then wrap v else readReg s r) ∧
  (∀ a : Int, memRead t a = if p = .cell a ∧ 0 ≤ a ∧ a < 4096 then wrap v else memRead s a) ∧
  (∀ k : Nat, Memory.lookup t.mem k = if p = .cell k ∧ k < 4096 then some (wrap v) else Memory.lookup s.mem k)

/-- The Format T facts of an instruction rule: the token that names the mnemonic and its diagnostic code
(spec/30_encoding.md R74, R92). -/
abbrev HasEncoding (m : Mnemonic) (token : Text) (code : BitVec 4) : Prop :=
  mnemonicOf? token = some m ∧ m.code = code

/-- The jump `i` is taken in `s` (spec/45_control.md R181 to R185); no other instruction is. -/
def jumpTaken (i : Instr) (s : State) : Bool :=
  match i.mnemonic with
  | .jmp => true
  | .jz => s.zf
  | .jnz => !s.zf
  | .js => s.sf
  | .jns => !s.sf
  | .mov | .add | .sub | .mul | .div | .and | .or | .xor | .not | .cmp | .inc => false

/-! ## Runs -/

/-- The state after `n` steps that all return `Continued`; none if one of them does not. -/
def continues : Nat → State → Option State
  | 0, s => some s
  | n + 1, s =>
    match stepCall s with
    | .next (.continued, t) => continues n t
    | _ => none

/-- What a program can observe: registers, flags, `pc` and the value each address reads (spec/10_state.md R37). -/
def Indistinguishable (s t : State) : Prop :=
  s.regs = t.regs ∧ s.zf = t.zf ∧ s.sf = t.sf ∧ s.pc = t.pc ∧ ∀ a, memRead s a = memRead t a

/-- The lines of a text, joined by line feeds. -/
def joinLines : List Text → Text
  | [] => []
  | [l] => l
  | l :: ls => l ++ '\n' :: joinLines ls

/-! ## The invariant -/

/-- What every reachable state satisfies. -/
structure Inv (s : State) : Prop where
  /-- memory has its canonical form, keys in `[0, 4096)` (spec/20_memory.md R51) -/
  memory : Memory.wf s.mem
  /-- `(ZF, SF) = (1, 1)` never holds (spec/10_state.md R39) -/
  flags : ¬ (s.zf = true ∧ s.sf = true)
  /-- every installed record is what the decoder makes of its source line (spec/10_state.md R27, spec/30_encoding.md R75) -/
  records : ∀ r ∈ s.program, decodeLine r.lineNo r.source = .record r
  /-- the instruction register holds a record of the program (spec/10_state.md R28) -/
  latched : ∀ r, s.ir = some r → r ∈ s.program
  /-- it is absent exactly until the first executed instruction (spec/10_state.md R28, R29) -/
  counted : s.ir = none ↔ s.executed = 0
  /-- execution begins at index 0 (spec/20_memory.md R61) -/
  entry : s.executed = 0 → s.pc = 0
  /-- a failure is recorded only in a stopped machine at a negative `pc` (spec/40_cycle.md R101, R106) -/
  failure : s.lastError ≠ none → s.running = false ∧ s.pc < 0
  /-- only a jump makes `pc` negative (spec/60_exceptions.md R202) -/
  negative : s.pc < 0 → ∃ r, s.ir = some r ∧ r.opcode.isJump = true

/-- The states the host can bring the machine into: the reset state, and the state after any call (spec/60_exceptions.md
R220, R221). -/
inductive Reachable : State → Prop where
  | reset : Reachable State.reset
  | call {s t : State} {c : HostCall} {r : Response} (hs : Reachable s) (h : call c s = .next (r, t)) : Reachable t

end Sys2Proof.Machine
end

