-- ==== Sys2Proof/Certificates/Slice0/Obligations.lean ====
section
/-! DEFINITION. The statements about the machine, each with the rule of spec/ it comes from. -/

open Sys2Proof Sys2Proof.Machine

/-! ## Decoding and encoding -/

/-- The decoder reads back every instruction the encoder writes, with every operand at every value (30_encoding.md R79,
R80, R95; the encoder is the model's). -/
def Obligations.DecodeOfEncodeIsIdentity : Prop :=
  ∀ (i : Instr) (n : Nat), i.wf = true →
    decodeLine n (encode i) = .record (encodeRecord n i) ∧ decodeRecord (encodeRecord n i) = .instr i

/-- Loading an encoded program from any state installs exactly its instructions, over the reset state
(70_reset_and_hazards.md R232; the encoder is the model's, lines are split at LF by the spec's own choice D3, log 15). -/
def Obligations.LoadInstallsEncodedProgram : Prop :=
  ∀ (is : List Instr) (s : State), (∀ i ∈ is, i.wf = true) →
    ∃ rs, loadProgram (encodeProgram is) s
        = .next (.loaded is.length, { State.reset with program := rs, running := true }) ∧
      rs.map decodeRecord = is.map RecordResult.instr

/-- A few lines written out by hand decode to the instructions they stand for (30_encoding.md R72 to R85, one or more per
family of the table). Model's choices: the stored source is the whole unstripped line (log 8); `,` and `;` inside a line are
token text, tokens after the third are ignored, and opcodes fold by D5, D4, D24 (log 15). -/
def Obligations.WrittenOutLinesDecode : Prop :=
  decodeLine 1 "mov eax 5".toList = .record ⟨.mov, "eax".toList, "5".toList, "mov eax 5".toList, 1⟩ ∧
  decodeRecord ⟨.mov, "eax".toList, "5".toList, [], 1⟩ = .instr (.mov (.reg .eax) (.imm 5)) ∧
  decodeRecord ⟨.add, "[ebx]".toList, "-12".toList, [], 1⟩ = .instr (.add (.ind .ebx) (.imm (-12))) ∧
  decodeRecord ⟨.xor, "[4095]".toList, "edx".toList, [], 1⟩ = .instr (.xor (.dir 4095) (.reg .edx)) ∧
  decodeRecord ⟨.jnz, "1".toList, [], [], 1⟩ = .instr (.jnz (.imm 1) (.imm 0)) ∧
  decodeRecord ⟨.inc, "ecx,".toList, ";".toList, [], 1⟩ = .instr (.inc (.imm 0) (.imm 0)) ∧
  decodeLine 3 "  JNS [ecx] ; note".toList =
    .record ⟨.jns, "[ecx]".toList, ";".toList, "  JNS [ecx] ; note".toList, 3⟩

/-- The four token shapes: register mode and register-indirect mode are exactly the case-sensitive names, bare or in
brackets; direct mode and immediate mode are an integer literal, in brackets or bare, its value passed through `wrap` and
not range-checked (30_encoding.md R81, R82, R83, R84). -/
def Obligations.TokenShapesClassify : Prop :=
  Reg.name .eax = "eax".toList ∧ Reg.name .ebx = "ebx".toList ∧ Reg.name .ecx = "ecx".toList ∧
  Reg.name .edx = "edx".toList ∧
  (∀ (t : Text) (r : Reg), classify t = .reg r ↔ t = r.name) ∧
  (∀ (t : Text) (r : Reg), classify t = .ind r ↔ t = '[' :: (r.name ++ [']'])) ∧
  (∀ (t : Text) (v : Int), intLiteral? t = some v →
    classify t = .imm (wrap v) ∧ classify ('[' :: (t ++ [']'])) = .dir (wrap v)) ∧
  classify "EAX".toList = .imm 0 ∧ classify "[-1]".toList = .dir (-1) ∧ classify "[5000]".toList = .dir 5000 ∧
  tokens "[ eax ]".toList = ["[".toList, "eax".toList, "]".toList]

/-- The grammar of an integer literal: an optional sign and one or more ASCII digits in decimal (30_encoding.md R86; the
spec's own choice D2, log 7). -/
def Obligations.IntegerLiteralGrammar : Prop :=
  ∀ (t : Text) (v : Int), intLiteral? t = some v ↔
    ∃ (sign : Text) (ds : List Nat), (sign = [] ∨ sign = ['+'] ∨ sign = ['-']) ∧ ds ≠ [] ∧ (∀ d ∈ ds, d < 10) ∧
      t = sign ++ ds.map (fun d => Char.ofNat (48 + d)) ∧
      v = (if sign = ['-'] then -1 else 1) * ((ds.foldl (fun a d => a * 10 + d) 0 : Nat) : Int)

/-- The fallback: every token of no other shape is `Imm(0)`, as the literal `0` is, but for a token the load refuses
(30_encoding.md R85; the refusal is the spec's own choice D2, log 7). -/
def Obligations.OtherTokensAreImmediateZero : Prop :=
  (∀ t : Text, (∀ r : Reg, t ≠ r.name) → (∀ r : Reg, t ≠ '[' :: (r.name ++ [']'])) →
    (∀ u v, t = '[' :: (u ++ [']']) → intLiteral? u ≠ some v) → (∀ v, intLiteral? t ≠ some v) → classify t = .imm 0) ∧
  classify "0".toList = .imm 0 ∧ classify [] = .imm 0 ∧ classify "eax,".toList = .imm 0 ∧
  classify "EAX".toList = .imm 0 ∧ classify "[eax".toList = .imm 0 ∧ classify "[[0]]".toList = .imm 0 ∧
  (∀ r : InstrRecord, ((∃ c ∈ r.operand1, c = '_' ∨ 128 ≤ c.toNat) ∨ (∃ c ∈ r.operand2, c = '_' ∨ 128 ≤ c.toNat)) →
    decodeRecord r = .rejected (.ambiguousLiteral r.lineNo))

/-- An opcode token names a mnemonic exactly when its case-folded text is the mnemonic's spelling (30_encoding.md R74; the
folding is the spec's own choice D24, log 15). -/
def Obligations.OpcodeTokensFoldCase : Prop :=
  (∀ (t : Text) (m : Mnemonic), mnemonicOf? t = some m ↔ t.map foldCase = m.name) ∧
  (∀ c : Char, foldCase c ≠ c ↔ 'A' ≤ c ∧ c ≤ 'Z') ∧
  (∀ c : Char, 'A' ≤ c ∧ c ≤ 'Z' → (foldCase c).toNat = c.toNat + 32)

/-- A line is dropped exactly when it is blank or its first character after white space is `;` (30_encoding.md R71; the
white-space set is the spec's own choice D3, log 15). -/
def Obligations.OnlyBlankAndCommentLinesDrop : Prop :=
  (∀ (n : Nat) (l : Text), (∀ c ∈ l, isSpace c = true) → decodeLine n l = .dropped) ∧
  (∀ (n : Nat) (ws l : Text) (c : Char), (∀ b ∈ ws, isSpace b = true) → isSpace c = false →
    (decodeLine n (ws ++ c :: l) = .dropped ↔ c = ';')) ∧
  (∀ c : Char, isSpace c = true ↔ c.toNat ∈ [32, 9, 10, 11, 12, 13])

/-- The fields of a kept line: the first three tokens, wherever the white space stands, missing operands empty, later tokens
ignored (30_encoding.md R72, R73, R79). The last and the white-space set are the spec's own choices D4 and D3 (log 15);
that the stored source is the whole physical line, white space included, is the model's choice (log 8). -/
def Obligations.KeptLineFields : Prop :=
  ∀ (n : Nat) (m : Mnemonic) (op o1 o2 w0 w1 w2 rest : Text),
    mnemonicOf? op = some m → (∀ c ∈ op, isSpace c = false) →
    (∀ c ∈ o1, isSpace c = false ∧ isRefusedChar c = false) → (∀ c ∈ o2, isSpace c = false ∧ isRefusedChar c = false) →
    (∀ c ∈ w0, isSpace c = true) → (∀ c ∈ w1, isSpace c = true) → (∀ c ∈ w2, isSpace c = true) →
    (∀ c, rest.head? = some c → isSpace c = true) →
    decodeLine n (w0 ++ op ++ w1) = .record ⟨m, [], [], w0 ++ op ++ w1, n⟩ ∧
    (w1 ≠ [] → o1 ≠ [] →
      decodeLine n (w0 ++ op ++ w1 ++ o1 ++ w2) = .record ⟨m, o1, [], w0 ++ op ++ w1 ++ o1 ++ w2, n⟩) ∧
    (w1 ≠ [] → o1 ≠ [] → w2 ≠ [] → o2 ≠ [] → decodeLine n (w0 ++ op ++ w1 ++ o1 ++ w2 ++ o2 ++ rest) =
      .record ⟨m, o1, o2, w0 ++ op ++ w1 ++ o1 ++ w2 ++ o2 ++ rest, n⟩)

/-- The index of an installed instruction is the number of kept lines before its line, and its record is what its own
line decodes to under its 1-based line number (30_encoding.md R76, R77). The split at LF and the count of
lines are the spec's own choices D3 and D23 (log 15); that the source of R79's record is the whole unstripped line is the model's choice (log 8). -/
def Obligations.ProgramIndexCountsKeptLines : Prop :=
  ∀ (t : Text) (rs : List InstrRecord), decodeText t = .program rs →
    ∀ (i : Nat) (r : InstrRecord), rs[i]? = some r →
      ∃ l, 1 ≤ r.lineNo ∧ (splitLines t)[r.lineNo - 1]? = some l ∧ decodeLine r.lineNo l = .record r ∧ r.source = l ∧
        i = ((splitLines t).take (r.lineNo - 1)).countP (fun k => !isDropped k)

/-- An unknown opcode on a line ends the load: the response names the line and the token, the state is the reset state,
whatever lines follow (30_encoding.md R75, R76, 70_reset_and_hazards.md R233; the reset fields, the unwritten `lastError`,
the split at LF and the line count are the spec's own choices D21, D12, D3 and D23, log 12, log 14 and log 15). -/
def Obligations.UnknownOpcodeFailsTheLoad : Prop :=
  ∀ (good later : List Text) (bad token : Text) (more : List Text) (s : State),
    (∀ l ∈ good ++ bad :: later, '\n' ∉ l) →
    (∀ k l, good[k]? = some l → ∀ why, decodeLine (k + 1) l ≠ .rejected why) →
    isDropped bad = false → tokens (strip bad) = token :: more → mnemonicOf? token = none →
    ∃ message, loadProgram (joinLines (good ++ bad :: later)) s =
      .next (.rejected (good.length + 1) token message, State.reset)

/-- The diagnostic word and its display string: the opcode code in the top four bits, zeros below, 40 characters from the
most significant bit; operands are not in it (30_encoding.md R90, R91, R92; codes and placeholder fields are the spec's own
choices D7 and D8, log 13). -/
def Obligations.DiagnosticWordLayout : Prop :=
  ∀ i : Instr,
    (diagWord i).toNat = i.mnemonic.code.toNat * 2 ^ 36 ∧
    (displayString i).length = 40 ∧
    (∀ k : Nat, k < 40 → (displayString i)[k]? = some (if (diagWord i).getLsbD (39 - k) then '1' else '0')) ∧
    decodeTableWord 40 (diagWord i).toNat = some (Instr.build i.mnemonic (.imm 0) (.imm 0))

/-! ## Values -/

/-- `wrap` at a finite XLEN gives the one value in range that differs by a multiple of `2^N`; at the machine's XLEN it is the
identity (00_scope.md R16; XLEN unbounded is the spec's own choice D1, log 5). -/
def Obligations.WrapIsTwosComplement : Prop :=
  (∀ (n : Nat) (v w : Int), 0 < n →
    (wrapAt (some n) v = w ↔ -2 ^ (n - 1) ≤ w ∧ w < 2 ^ (n - 1) ∧ ∃ k : Int, v = w + k * 2 ^ n)) ∧
  (∀ v : Int, wrap v = v)

/-- Division truncates toward zero: the quotient leaves a remainder smaller than the divisor, of the dividend's sign
(00_scope.md R17, 43_arithmetic.md R159; log 19). -/
def Obligations.DivisionTruncatesTowardZero : Prop :=
  ∀ a b q : Int, b ≠ 0 →
    (tdiv a b = q ↔ ∃ r : Int, a = q * b + r ∧ r.natAbs < b.natAbs ∧ (0 < r → 0 < a) ∧ (r < 0 → a < 0))

/-- The bitwise functions act on every bit of the two's-complement view, and an integer is determined by its bits
(00_scope.md R13, R18, 44_logic.md R170; log 19). -/
def Obligations.BitwiseFunctionsActOnEveryBit : Prop :=
  (∀ a b c : Int, band a b = c ↔ ∀ i, intBit c i = (intBit a i && intBit b i)) ∧
  (∀ a b c : Int, bor a b = c ↔ ∀ i, intBit c i = (intBit a i || intBit b i)) ∧
  (∀ a b c : Int, bxor a b = c ↔ ∀ i, intBit c i = (intBit a i ^^ intBit b i)) ∧
  (∀ a c : Int, bnot a = c ↔ ∀ i, intBit c i = !intBit a i) ∧
  (∀ a : Int, bnot a = -a - 1)

/-! ## Memory and operands -/

/-- `MemRead`: the value under the key, 0 for an unwritten cell, 0 out of range (20_memory.md R53). -/
def Obligations.MemoryRead : Prop :=
  ∀ (s : State) (a : Int),
    (∀ v, 0 ≤ a → a < 4096 → Memory.wf s.mem → (a.toNat, v) ∈ s.mem → memRead s a = v) ∧
    (a.toNat ∉ Memory.keys s.mem → memRead s a = 0) ∧
    (¬ (0 ≤ a ∧ a < 4096) → memRead s a = 0)

/-- `MemWrite`: in range it stores `wrap(v)` under the address and changes nothing else; out of range it is dropped
(20_memory.md R54). -/
def Obligations.MemoryWrite : Prop :=
  ∀ (s : State) (a : Int) (v : Int),
    (0 ≤ a → a < 4096 →
      memRead (memWrite s a v) a = wrap v ∧ Memory.lookup (memWrite s a v).mem a.toNat = some (wrap v) ∧
      (∀ b, b ≠ a → memRead (memWrite s a v) b = memRead s b) ∧
      (∀ k : Nat, k ≠ a.toNat → Memory.lookup (memWrite s a v).mem k = Memory.lookup s.mem k) ∧
      memWrite s a v = { s with mem := (memWrite s a v).mem }) ∧
    (¬ (0 ≤ a ∧ a < 4096) → memWrite s a v = s)

/-- Every in-range write leaves its key in the map, the value 0 included, and removes none; the canonical form is kept
(20_memory.md R51, R52; the key of a zero is the spec's own choice D13, log 3). -/
def Obligations.WritesKeepEveryKey : Prop :=
  ∀ (s : State) (a : Int) (v : Int),
    (∀ k, k ∈ Memory.keys (memWrite s a v).mem ↔ k ∈ Memory.keys s.mem ∨ ((k : Int) = a ∧ k < 4096)) ∧
    (Memory.wf s.mem → Memory.wf (memWrite s a v).mem)

/-- The host's round trip through `setMemory` and `getMemory` (20_memory.md R69). -/
def Obligations.HostMemoryRoundTrip : Prop :=
  ∀ (s : State) (a : Int) (v : Int),
    (0 ≤ a ∧ a < 4096 → ∃ t, calls [.setMemory a v, .getMemory a] s = .next ([.nothing, .value (wrap v)], t)) ∧
    (¬ (0 ≤ a ∧ a < 4096) → calls [.setMemory a v, .getMemory a] s = .next ([.nothing, .value 0], s))

/-- A read gives the most recent write in range to its address, or what was there before (20_memory.md R63, over the
host's pokes; derived). -/
def Obligations.ReadsSeeTheLatestWrite : Prop :=
  ∀ (pokes : List (Int × Int)) (s : State) (a : Int),
    ∃ rs t, calls (pokes.map fun p => HostCall.setMemory p.1 p.2) s = .next (rs, t) ∧
      memRead t a =
        match pokes.reverse.find? (fun p => p.1 == a) with
        | some p => if 0 ≤ a ∧ a < 4096 then wrap p.2 else 0
        | none => memRead s a

/-- `Read(op)` and `Write(op, v)` of each descriptor, the write with its frame (41_operands.md R120, R121). -/
def Obligations.OperandReadsAndWrites : Prop :=
  ∀ (s : State) (v : Int),
    (∀ r, readOp (.reg r) s = readReg s r) ∧ (∀ r, readOp (.ind r) s = memRead s (readReg s r)) ∧
    (∀ n, readOp (.dir n) s = memRead s n) ∧ (∀ n, readOp (.imm n) s = n) ∧
    (∀ r, WritesPlace (.register r) v s (writeOp (.reg r) v s)) ∧
    (∀ r, WritesPlace (.cell (readReg s r)) v s (writeOp (.ind r) v s)) ∧
    (∀ n, WritesPlace (.cell n) v s (writeOp (.dir n) v s)) ∧
    (∀ n, writeOp (.imm n) v s = s) ∧
    (∀ o, SameFlags s (writeOp o v s) ∧ SameControl s (writeOp o v s) ∧ (writeOp o v s).pc = s.pc)

/-! ## Instructions

Each completes for every operand of every shape in every state (spec/60_exceptions.md R201), and is stated with its frame.
`resolve d st` is the place the meaning writes. The execute part leaves `pc` alone but for a taken jump: the step adds 1
(`StepRunsDecodedInstruction`, `StepAdvances`). The diagnostic codes are the spec's choice D7 (log 13). -/

/-- `mov` (42_move.md R140). -/
def Obligations.MovResult : Prop :=
  HasEncoding .mov "mov".toList 0 ∧
  ∀ (d s : Operand) (st : State), ∃ t, exec (.mov d s) st = .next t ∧
    WritesPlace (resolve d st) (readOp s st) st t ∧ SameFlags st t ∧ SameControl st t ∧ t.pc = st.pc

/-- `add` (43_arithmetic.md R151). -/
def Obligations.AddResult : Prop :=
  HasEncoding .add "add".toList 1 ∧
  ∀ (d s : Operand) (st : State), ∃ t, exec (.add d s) st = .next t ∧
    WritesPlace (resolve d st) (wrap (readOp d st + readOp s st)) st t ∧
    (t.zf = true ↔ wrap (readOp d st + readOp s st) = 0) ∧ (t.sf = true ↔ wrap (readOp d st + readOp s st) < 0) ∧
    SameControl st t ∧ t.pc = st.pc

/-- `sub` (43_arithmetic.md R152). -/
def Obligations.SubResult : Prop :=
  HasEncoding .sub "sub".toList 2 ∧
  ∀ (d s : Operand) (st : State), ∃ t, exec (.sub d s) st = .next t ∧
    WritesPlace (resolve d st) (wrap (readOp d st - readOp s st)) st t ∧
    (t.zf = true ↔ wrap (readOp d st - readOp s st) = 0) ∧ (t.sf = true ↔ wrap (readOp d st - readOp s st) < 0) ∧
    SameControl st t ∧ t.pc = st.pc

/-- `mul` (43_arithmetic.md R153). -/
def Obligations.MulResult : Prop :=
  HasEncoding .mul "mul".toList 3 ∧
  ∀ (d s : Operand) (st : State), ∃ t, exec (.mul d s) st = .next t ∧
    WritesPlace (resolve d st) (wrap (readOp d st * readOp s st)) st t ∧ SameFlags st t ∧ SameControl st t ∧ t.pc = st.pc

/-- `div` (43_arithmetic.md R154): a divisor of 0 changes nothing. -/
def Obligations.DivResult : Prop :=
  HasEncoding .div "div".toList 4 ∧
  ∀ (d s : Operand) (st : State),
    (readOp s st = 0 → exec (.div d s) st = .next st) ∧
    (readOp s st ≠ 0 → ∃ t, exec (.div d s) st = .next t ∧
      WritesPlace (resolve d st) (wrap (tdiv (readOp d st) (readOp s st))) st t ∧
      SameFlags st t ∧ SameControl st t ∧ t.pc = st.pc)

/-- `inc` (43_arithmetic.md R155): operand2 is not read. -/
def Obligations.IncResult : Prop :=
  HasEncoding .inc "inc".toList 15 ∧
  ∀ (d u : Operand) (st : State), ∃ t, exec (.inc d u) st = .next t ∧
    WritesPlace (resolve d st) (wrap (readOp d st + 1)) st t ∧ SameFlags st t ∧ SameControl st t ∧ t.pc = st.pc

/-- `cmp` (43_arithmetic.md R156). -/
def Obligations.CmpResult : Prop :=
  HasEncoding .cmp "cmp".toList 14 ∧
  ∀ (a b : Operand) (st : State), ∃ t, exec (.cmp a b) st = .next t ∧ SameData st t ∧
    (t.zf = true ↔ wrap (readOp a st - readOp b st) = 0) ∧ (t.sf = true ↔ wrap (readOp a st - readOp b st) < 0) ∧
    SameControl st t ∧ t.pc = st.pc

/-- `and` (44_logic.md R171). -/
def Obligations.AndResult : Prop :=
  HasEncoding .and "and".toList 10 ∧
  ∀ (d s : Operand) (st : State), ∃ t, exec (.and d s) st = .next t ∧
    WritesPlace (resolve d st) (band (readOp d st) (readOp s st)) st t ∧ SameFlags st t ∧ SameControl st t ∧ t.pc = st.pc

/-- `or` (44_logic.md R172). -/
def Obligations.OrResult : Prop :=
  HasEncoding .or "or".toList 11 ∧
  ∀ (d s : Operand) (st : State), ∃ t, exec (.or d s) st = .next t ∧
    WritesPlace (resolve d st) (bor (readOp d st) (readOp s st)) st t ∧ SameFlags st t ∧ SameControl st t ∧ t.pc = st.pc

/-- `xor` (44_logic.md R173). -/
def Obligations.XorResult : Prop :=
  HasEncoding .xor "xor".toList 12 ∧
  ∀ (d s : Operand) (st : State), ∃ t, exec (.xor d s) st = .next t ∧
    WritesPlace (resolve d st) (bxor (readOp d st) (readOp s st)) st t ∧ SameFlags st t ∧ SameControl st t ∧ t.pc = st.pc

/-- `not` (44_logic.md R174): operand2 is not read. -/
def Obligations.NotResult : Prop :=
  HasEncoding .not "not".toList 13 ∧
  ∀ (d u : Operand) (st : State), ∃ t, exec (.not d u) st = .next t ∧
    WritesPlace (resolve d st) (bnot (readOp d st)) st t ∧ bnot (readOp d st) = -readOp d st - 1 ∧
    SameFlags st t ∧ SameControl st t ∧ t.pc = st.pc

/-- `jmp` (45_control.md R181): `pc <- t - 1`, nothing else. -/
def Obligations.JmpResult : Prop :=
  HasEncoding .jmp "jmp".toList 5 ∧
  ∀ (t u : Operand) (st : State), exec (.jmp t u) st = .next { st with pc := readOp t st - 1 }

/-- `jz` (45_control.md R182). -/
def Obligations.JzResult : Prop :=
  HasEncoding .jz "jz".toList 6 ∧
  ∀ (t u : Operand) (st : State),
    exec (.jz t u) st = .next (if st.zf = true then { st with pc := readOp t st - 1 } else st)

/-- `jnz` (45_control.md R183). -/
def Obligations.JnzResult : Prop :=
  HasEncoding .jnz "jnz".toList 7 ∧
  ∀ (t u : Operand) (st : State),
    exec (.jnz t u) st = .next (if st.zf = false then { st with pc := readOp t st - 1 } else st)

/-- `js` (45_control.md R184). -/
def Obligations.JsResult : Prop :=
  HasEncoding .js "js".toList 8 ∧
  ∀ (t u : Operand) (st : State),
    exec (.js t u) st = .next (if st.sf = true then { st with pc := readOp t st - 1 } else st)

/-- `jns` (45_control.md R185). -/
def Obligations.JnsResult : Prop :=
  HasEncoding .jns "jns".toList 9 ∧
  ∀ (t u : Operand) (st : State),
    exec (.jns t u) st = .next (if st.sf = false then { st with pc := readOp t st - 1 } else st)

/-! ## Rules over all instructions -/

/-- Only `add`, `sub` and `cmp` write the flags, and they leave the flags of one result (10_state.md R23, R39; derived). -/
def Obligations.OnlyAddSubCmpWriteFlags : Prop :=
  ∀ (i : Instr) (s t : State), exec i s = .next t →
    (i.mnemonic ∉ [Mnemonic.add, .sub, .cmp] → SameFlags s t) ∧
    (i.mnemonic ∈ [Mnemonic.add, .sub, .cmp] → ∃ r : Int, t.zf = decide (r = 0) ∧ t.sf = decide (r < 0))

/-- A register changes only as operand1, in register mode, of an instruction that writes its first operand; a memory cell
only as the cell operand1 names (10_state.md R38, 20_memory.md R57; derived). -/
def Obligations.OnlyTheDestinationChanges : Prop :=
  ∀ (i : Instr) (s t : State), exec i s = .next t →
    (∀ r, readReg t r ≠ readReg s r → i.operand1 = .reg r ∧
      i.mnemonic ∈ [Mnemonic.mov, .add, .sub, .mul, .div, .and, .or, .xor, .not, .inc]) ∧
    (∀ a, memRead t a ≠ memRead s a → resolve i.operand1 s = .cell a ∧ 0 ≤ a ∧ a < 4096 ∧
      i.mnemonic ∈ [Mnemonic.mov, .add, .sub, .mul, .div, .and, .or, .xor, .not, .inc])

/-- No instruction fails or stops the machine, whatever its operands (60_exceptions.md R201; derived). -/
def Obligations.EveryInstructionCompletes : Prop :=
  ∀ (i : Instr) (s : State), ∃ t, exec i s = .next t ∧ SameControl s t

/-- A program cannot observe `ir`, `executed`, `running`, `lastError` or the key set of memory: states that agree on the
rest go to states that agree on the rest (10_state.md R37; derived). -/
def Obligations.ProgramsCannotSeeHiddenState : Prop :=
  ∀ (i : Instr) (s t s' t' : State), Indistinguishable s t → exec i s = .next s' → exec i t = .next t' →
    Indistinguishable s' t'

/-- The signed comparison a conditional jump makes after `cmp a b` (43_arithmetic.md R160, XLEN unbounded by D1, log 5;
derived). -/
def Obligations.JumpsAfterCompare : Prop :=
  ∀ (a b target u : Operand) (s t : State), exec (.cmp a b) s = .next t →
    (jumpTaken (.jz target u) t = true ↔ readOp a s = readOp b s) ∧
    (jumpTaken (.jnz target u) t = true ↔ readOp a s ≠ readOp b s) ∧
    (jumpTaken (.js target u) t = true ↔ readOp a s < readOp b s) ∧
    (jumpTaken (.jns target u) t = true ↔ readOp b s ≤ readOp a s)

/-- The same location as source and destination: every read sees the state before the write (40_cycle.md R112, XLEN
unbounded by D1, log 5; derived). -/
def Obligations.SourceIsDestination : Prop :=
  (∀ (r : Reg) (s t : State), exec (.add (.reg r) (.reg r)) s = .next t → readReg t r = 2 * readReg s r) ∧
  (∀ (d : Operand) (s t : State), exec (.sub d d) s = .next t → t.zf = true ∧ t.sf = false) ∧
  (∀ (r : Reg) (s t : State), exec (.mov (.reg r) (.ind r)) s = .next t → readReg t r = memRead s (readReg s r)) ∧
  (∀ (r : Reg) (s t : State), exec (.add (.ind r) (.reg r)) s = .next t → 0 ≤ readReg s r → readReg s r < 4096 →
    memRead t (readReg s r) = memRead s (readReg s r) + readReg s r ∧ readReg t r = readReg s r)

/-! ## The cycle -/

/-- A step in the halted condition only clears `running` (40_cycle.md R100; "without side effects" is read by the spec's own
choice D22, log 21). -/
def Obligations.HaltedStepClearsRunning : Prop :=
  ∀ s : State, (s.running = false ∨ (s.program.length : Int) ≤ s.pc) →
    stepCall s = .next (.halted, { s with running := false }) ∧ step s = .next { s with running := false }

/-- A step at a negative `pc` fails with `InvalidPc` before any fetch (40_cycle.md R101, the spec's own choice D6, log 6). -/
def Obligations.NegativePcFails : Prop :=
  ∀ s : State, s.running = true → s.pc < 0 →
    stepCall s = .next (.failed .invalidPc, { s with running := false, lastError := some .invalidPc }) ∧
    step s = .next { s with running := false, lastError := some .invalidPc }

/-- A step fetches the record at `pc` into `ir`, runs its instruction, and adds 1 to `pc` and to `executed` (40_cycle.md
R102, R103). -/
def Obligations.StepRunsDecodedInstruction : Prop :=
  ∀ (s t : State) (r : InstrRecord) (i : Instr), s.running = true → 0 ≤ s.pc → s.program[s.pc.toNat]? = some r →
    decodeRecord r = .instr i → exec i { s with ir := some r } = .next t →
    stepCall s = .next (.continued, { t with pc := t.pc + 1, executed := t.executed + 1 }) ∧
    step s = .next { t with pc := t.pc + 1, executed := t.executed + 1 }

/-- Executing one instruction adds 1 to the count and to `pc`, and a taken jump sets `pc` to its target (40_cycle.md R110). -/
def Obligations.StepAdvances : Prop :=
  ∀ (s : State) (r : InstrRecord) (i : Instr), s.running = true → 0 ≤ s.pc → s.program[s.pc.toNat]? = some r →
    decodeRecord r = .instr i →
    ∃ t, stepCall s = .next (.continued, t) ∧ t.executed = s.executed + 1 ∧ t.ir = some r ∧ t.running = true ∧
      t.pc = if jumpTaken i s then readOp i.operand1 s else s.pc + 1

/-- A step of a machine whose records all decode has an outcome and a next state: it never faults, never refuses
(40_cycle.md R105; derived). -/
def Obligations.StepIsTotal : Prop :=
  ∀ s : State, (∀ r ∈ s.program, ∃ i, decodeRecord r = .instr i) → ∃ o t, stepCall s = .next (o, t) ∧ step s = .next t

/-- After `Halted` or `Failed` every further step returns `Halted` and changes nothing (40_cycle.md R108; derived). -/
def Obligations.StoppedMachineStays : Prop :=
  ∀ (s t : State) (o : StepOutcome) (n : Nat), stepCall s = .next (o, t) → o ≠ .continued →
    stepCall t = .next (.halted, t) ∧ Host.Core.run Sys2Proof.core n t = .next t

/-- Only a taken jump to a negative target makes `pc` negative (60_exceptions.md R202; derived). -/
def Obligations.NegativePcOnlyByJump : Prop :=
  ∀ s t : State, 0 ≤ s.pc → stepCall s = .next (.continued, t) → t.pc < 0 →
    ∃ r i, s.program[s.pc.toNat]? = some r ∧ decodeRecord r = .instr i ∧ t.ir = some r ∧ jumpTaken i s = true ∧
      readOp i.operand1 s = t.pc

/-- The transitions of the executor state machine by a step and by the other host calls: a poke makes none, a reset goes to
Idle, a load to Running or, when it fails, to Idle, and a run driver called outside Running makes none (60_exceptions.md
R207, R221, 10_state.md R33, 70_reset_and_hazards.md R230 to R233; derived). The failure at a negative `pc` is the spec's own
choice D6 (log 6); for a program without instructions, Halted after its load and Idle after a step is deduced (log 10). -/
def Obligations.ExecutorStateTransitions : Prop :=
  (∀ (s t : State) (o : StepOutcome), Inv s → stepCall s = .next (o, t) →
    (executorState s = .idle → o = .halted ∧ t = s) ∧
    (executorState s = .failed → o = .halted ∧ t = s) ∧
    (executorState s = .halted →
      o = .halted ∧ (executorState t = .halted ∨ s.program = [] ∧ executorState t = .idle)) ∧
    (executorState s = .running →
      (o = .continued ∧ (executorState t = .running ∨ (t.program.length : Int) ≤ t.pc ∧ executorState t = .halted)) ∨
      (o = .failed .invalidPc ∧ executorState t = .failed))) ∧
  (∀ (s t : State) (r : Response) (a v : Int), call (.setMemory a v) s = .next (r, t) →
    executorState t = executorState s) ∧
  (∀ (s t : State) (r : Response), call .reset s = .next (r, t) → executorState t = .idle) ∧
  (∀ (s t : State) (text : Text) (r : LoadResponse), call (.loadProgram text) s = .next (.load r, t) →
    (∀ n, r = .loaded n → executorState t = if n = 0 then .halted else .running) ∧
    (∀ line token message, r = .rejected line token message → executorState t = .idle)) ∧
  (∀ (s : State) (maxSteps : Int), Inv s → executorState s ≠ .running →
    runAuto maxSteps s = .next (.completed 0, s))

/-- Stores and pokes never reach the program: only a load or a reset replaces it (20_memory.md R66; derived). -/
def Obligations.OnlyLoadAndResetChangeProgram : Prop :=
  ∀ (c : HostCall) (r : Response) (s t : State), call c s = .next (r, t) → t.program ≠ s.program →
    (∃ text, c = .loadProgram text) ∨ c = .reset

/-! ## Invariant -/

/-- Every step keeps the invariant, from every state that has it (10_state.md, 40_cycle.md; the failure at a negative `pc` is
the spec's own choice D6, log 6). -/
def Obligations.StepKeepsInvariant : Prop :=
  ∀ s t : State, Inv s → step s = .next t → Inv t

/-- The reset state has the invariant (70_reset_and_hazards.md; `ir`, `executed` and `lastError` by the spec's own choice D21,
log 12). -/
def Obligations.ResetHasInvariant : Prop := Inv State.reset

/-- Every state the host can bring the machine into by any calls has the invariant (60_exceptions.md R220, R221; the choices
D6 and D21, log 6 and log 12). -/
def Obligations.ReachableStatesHaveInvariant : Prop :=
  ∀ s : State, Reachable s → Inv s

/-! ## Reset, load, run driver -/

/-- The reset state (70_reset_and_hazards.md R230; `ir`, `executed` and `lastError` by the spec's own choice D21, log 12). -/
def Obligations.ResetState : Prop :=
  ∀ s : State, ∃ t, call .reset s = .next (.nothing, t) ∧ t = State.reset ∧
    (∀ r, readReg t r = 0) ∧ t.zf = false ∧ t.sf = false ∧ (∀ a, memRead t a = 0) ∧ t.mem = [] ∧ t.program = [] ∧
    t.pc = 0 ∧ t.ir = none ∧ t.executed = 0 ∧ t.running = false ∧ t.lastError = none

/-- A load replaces the whole machine: its answer and the state after it do not depend on the state before
(70_reset_and_hazards.md R234), and a successful one leaves the reset state but for `program` and `running` (R232). The
reset fields, the unwritten `lastError` and the refusal are the spec's own choices D21, D12 and D2 (log 12, log 14, log 7). -/
def Obligations.LoadReplacesTheMachine : Prop :=
  (∀ (text : Text) (s s' : State), loadProgram text s = loadProgram text s') ∧
  (∀ (text : Text) (s : State) (rs : List InstrRecord), decodeText text = .program rs →
    loadProgram text s = .next (.loaded rs.length, { State.reset with program := rs, running := true })) ∧
  (∀ (text : Text) (s : State) (line : Nat) (token : Text), decodeText text = .rejected (.unknownOpcode line token) →
    ∃ message, loadProgram text s = .next (.rejected line token message, State.reset)) ∧
  (∀ (text : Text) (s : State) (line : Nat), decodeText text = .rejected (.ambiguousLiteral line) →
    loadProgram text s = .refused (.ambiguousLiteral line))

/-- `runAuto` with a budget of at least `N`, stopping after `N` steps, leaves the state that `N` calls of `step` leave
(60_exceptions.md R218; the answer in a tie and after a failed step is the spec's own choice D10 and D11, log 14; the
failure at a negative `pc` is D6, log 6). -/
def Obligations.RunAutoIsRepeatedStep : Prop :=
  ∀ (n : Nat) (maxSteps : Int) (s t : State), continues n s = some t →
    Host.Core.run Sys2Proof.core n s = .next t ∧ t.executed = s.executed + n ∧
    ((n : Int) ≤ maxSteps → haltedCondition t = true → runAuto maxSteps s = .next (.completed n, t)) ∧
    (maxSteps = n → haltedCondition t = false → runAuto maxSteps s = .next (.limitExceeded n, t)) ∧
    ((n : Int) < maxSteps → t.running = true → t.pc < 0 →
      runAuto maxSteps s = .next (.completed n, { t with running := false, lastError := some .invalidPc }))

/-- What an answer of `runAuto` says of the state it leaves: the limit is reached with the budget used up and `running`
not forced false; completion is the halted condition (60_exceptions.md R216, R217; loop order, count and `lastError` are the
spec's own choices D10, D11, D12, log 14; the failure at a negative `pc` is D6, log 6). -/
def Obligations.RunAutoAnswers : Prop :=
  ∀ (maxSteps : Int) (s t : State) (r : RunResponse), runAuto maxSteps s = .next (r, t) →
    (∀ n, r = .limitExceeded n → n = maxSteps.toNat ∧ continues n s = some t ∧ t.running = true ∧
      t.lastError = s.lastError) ∧
    (∀ n, r = .completed n → n ≤ maxSteps.toNat ∧ haltedCondition t = true ∧ t.executed = s.executed + n ∧
      ∃ u, continues n s = some u ∧ (u = t ∨ u.running = true ∧ u.pc < 0 ∧ t = takeFailure .invalidPc u))

/-- The host reads the state and changes nothing by `snapshot` and `getMemory` (10_state.md R36, 20_memory.md R68;
derived). -/
def Obligations.ObservationsChangeNothing : Prop :=
  ∀ s : State, (∃ v, call .snapshot s = .next (.snapshot v, s) ∧ v.memory = s.mem ∧ v.lastError = s.lastError ∧
      v.executedCount = s.executed ∧ v.instructionRegister = s.ir ∧ v.running = s.running ∧ v.pc = s.pc ∧
      v.zero = s.zf ∧ v.sign = s.sf ∧ ∀ r, v.registers.get r = readReg s r) ∧
    ∀ a, call (.getMemory a) s = .next (.value (memRead s a), s)
end

