-- ==== Sys2Proof/Laws/State.lean ====
section
/-! SUPPORT. One lemma per field per update of the state, so that no proof unfolds a record update. -/

namespace Sys2Proof.Machine

open Sys2Proof

/-! ## `writeReg` -/

@[simp] theorem writeReg_regs (s : State) (r : Reg) (v : Int) : (writeReg s r v).regs = s.regs.set r v := rfl
@[simp] theorem writeReg_zf (s : State) (r : Reg) (v : Int) : (writeReg s r v).zf = s.zf := rfl
@[simp] theorem writeReg_sf (s : State) (r : Reg) (v : Int) : (writeReg s r v).sf = s.sf := rfl
@[simp] theorem writeReg_mem (s : State) (r : Reg) (v : Int) : (writeReg s r v).mem = s.mem := rfl
@[simp] theorem writeReg_program (s : State) (r : Reg) (v : Int) : (writeReg s r v).program = s.program := rfl
@[simp] theorem writeReg_pc (s : State) (r : Reg) (v : Int) : (writeReg s r v).pc = s.pc := rfl
@[simp] theorem writeReg_ir (s : State) (r : Reg) (v : Int) : (writeReg s r v).ir = s.ir := rfl
@[simp] theorem writeReg_executed (s : State) (r : Reg) (v : Int) : (writeReg s r v).executed = s.executed := rfl
@[simp] theorem writeReg_running (s : State) (r : Reg) (v : Int) : (writeReg s r v).running = s.running := rfl
@[simp] theorem writeReg_lastError (s : State) (r : Reg) (v : Int) : (writeReg s r v).lastError = s.lastError := rfl

/-! ## `memWrite` -/

@[simp] theorem memWrite_regs (s : State) (a : Int) (v : Int) : (memWrite s a v).regs = s.regs := by
  unfold memWrite; split <;> rfl
@[simp] theorem memWrite_zf (s : State) (a : Int) (v : Int) : (memWrite s a v).zf = s.zf := by
  unfold memWrite; split <;> rfl
@[simp] theorem memWrite_sf (s : State) (a : Int) (v : Int) : (memWrite s a v).sf = s.sf := by
  unfold memWrite; split <;> rfl
@[simp] theorem memWrite_program (s : State) (a : Int) (v : Int) : (memWrite s a v).program = s.program := by
  unfold memWrite; split <;> rfl
@[simp] theorem memWrite_pc (s : State) (a : Int) (v : Int) : (memWrite s a v).pc = s.pc := by
  unfold memWrite; split <;> rfl
@[simp] theorem memWrite_ir (s : State) (a : Int) (v : Int) : (memWrite s a v).ir = s.ir := by
  unfold memWrite; split <;> rfl
@[simp] theorem memWrite_executed (s : State) (a : Int) (v : Int) : (memWrite s a v).executed = s.executed := by
  unfold memWrite; split <;> rfl
@[simp] theorem memWrite_running (s : State) (a : Int) (v : Int) : (memWrite s a v).running = s.running := by
  unfold memWrite; split <;> rfl
@[simp] theorem memWrite_lastError (s : State) (a : Int) (v : Int) : (memWrite s a v).lastError = s.lastError := by
  unfold memWrite; split <;> rfl
theorem memWrite_mem (s : State) (a : Int) (v : Int) :
    (memWrite s a v).mem = if inRange a then Memory.insert s.mem a.toNat (wrap v) else s.mem := by
  unfold memWrite; split <;> rfl

/-! ## `setFlags` -/

@[simp] theorem setFlags_regs (r : Int) (s : State) : (setFlags r s).regs = s.regs := rfl
@[simp] theorem setFlags_zf (r : Int) (s : State) : (setFlags r s).zf = (r == 0) := rfl
@[simp] theorem setFlags_sf (r : Int) (s : State) : (setFlags r s).sf = decide (r < 0) := rfl
@[simp] theorem setFlags_mem (r : Int) (s : State) : (setFlags r s).mem = s.mem := rfl
@[simp] theorem setFlags_program (r : Int) (s : State) : (setFlags r s).program = s.program := rfl
@[simp] theorem setFlags_pc (r : Int) (s : State) : (setFlags r s).pc = s.pc := rfl
@[simp] theorem setFlags_ir (r : Int) (s : State) : (setFlags r s).ir = s.ir := rfl
@[simp] theorem setFlags_executed (r : Int) (s : State) : (setFlags r s).executed = s.executed := rfl
@[simp] theorem setFlags_running (r : Int) (s : State) : (setFlags r s).running = s.running := rfl
@[simp] theorem setFlags_lastError (r : Int) (s : State) : (setFlags r s).lastError = s.lastError := rfl

/-! ## `redirect` -/

@[simp] theorem redirect_regs (t : Int) (s : State) : (redirect t s).regs = s.regs := rfl
@[simp] theorem redirect_zf (t : Int) (s : State) : (redirect t s).zf = s.zf := rfl
@[simp] theorem redirect_sf (t : Int) (s : State) : (redirect t s).sf = s.sf := rfl
@[simp] theorem redirect_mem (t : Int) (s : State) : (redirect t s).mem = s.mem := rfl
@[simp] theorem redirect_program (t : Int) (s : State) : (redirect t s).program = s.program := rfl
@[simp] theorem redirect_pc (t : Int) (s : State) : (redirect t s).pc = t - 1 := rfl
@[simp] theorem redirect_ir (t : Int) (s : State) : (redirect t s).ir = s.ir := rfl
@[simp] theorem redirect_executed (t : Int) (s : State) : (redirect t s).executed = s.executed := rfl
@[simp] theorem redirect_running (t : Int) (s : State) : (redirect t s).running = s.running := rfl
@[simp] theorem redirect_lastError (t : Int) (s : State) : (redirect t s).lastError = s.lastError := rfl

/-! ## `takeFailure` -/

@[simp] theorem takeFailure_regs (e : Fault) (s : State) : (takeFailure e s).regs = s.regs := rfl
@[simp] theorem takeFailure_zf (e : Fault) (s : State) : (takeFailure e s).zf = s.zf := rfl
@[simp] theorem takeFailure_sf (e : Fault) (s : State) : (takeFailure e s).sf = s.sf := rfl
@[simp] theorem takeFailure_mem (e : Fault) (s : State) : (takeFailure e s).mem = s.mem := rfl
@[simp] theorem takeFailure_program (e : Fault) (s : State) : (takeFailure e s).program = s.program := rfl
@[simp] theorem takeFailure_pc (e : Fault) (s : State) : (takeFailure e s).pc = s.pc := rfl
@[simp] theorem takeFailure_ir (e : Fault) (s : State) : (takeFailure e s).ir = s.ir := rfl
@[simp] theorem takeFailure_executed (e : Fault) (s : State) : (takeFailure e s).executed = s.executed := rfl
@[simp] theorem takeFailure_running (e : Fault) (s : State) : (takeFailure e s).running = false := rfl
@[simp] theorem takeFailure_lastError (e : Fault) (s : State) : (takeFailure e s).lastError = some e := rfl

/-! ## `haltStep` -/

@[simp] theorem haltStep_regs (s : State) : (haltStep s).regs = s.regs := rfl
@[simp] theorem haltStep_zf (s : State) : (haltStep s).zf = s.zf := rfl
@[simp] theorem haltStep_sf (s : State) : (haltStep s).sf = s.sf := rfl
@[simp] theorem haltStep_mem (s : State) : (haltStep s).mem = s.mem := rfl
@[simp] theorem haltStep_program (s : State) : (haltStep s).program = s.program := rfl
@[simp] theorem haltStep_pc (s : State) : (haltStep s).pc = s.pc := rfl
@[simp] theorem haltStep_ir (s : State) : (haltStep s).ir = s.ir := rfl
@[simp] theorem haltStep_executed (s : State) : (haltStep s).executed = s.executed := rfl
@[simp] theorem haltStep_running (s : State) : (haltStep s).running = false := rfl
@[simp] theorem haltStep_lastError (s : State) : (haltStep s).lastError = s.lastError := rfl

/-! ## `latch` -/

@[simp] theorem latch_regs (r : InstrRecord) (s : State) : (latch r s).regs = s.regs := rfl
@[simp] theorem latch_zf (r : InstrRecord) (s : State) : (latch r s).zf = s.zf := rfl
@[simp] theorem latch_sf (r : InstrRecord) (s : State) : (latch r s).sf = s.sf := rfl
@[simp] theorem latch_mem (r : InstrRecord) (s : State) : (latch r s).mem = s.mem := rfl
@[simp] theorem latch_program (r : InstrRecord) (s : State) : (latch r s).program = s.program := rfl
@[simp] theorem latch_pc (r : InstrRecord) (s : State) : (latch r s).pc = s.pc := rfl
@[simp] theorem latch_ir (r : InstrRecord) (s : State) : (latch r s).ir = some r := rfl
@[simp] theorem latch_executed (r : InstrRecord) (s : State) : (latch r s).executed = s.executed := rfl
@[simp] theorem latch_running (r : InstrRecord) (s : State) : (latch r s).running = s.running := rfl
@[simp] theorem latch_lastError (r : InstrRecord) (s : State) : (latch r s).lastError = s.lastError := rfl

/-! ## `advance` -/

@[simp] theorem advance_regs (s : State) : (advance s).regs = s.regs := rfl
@[simp] theorem advance_zf (s : State) : (advance s).zf = s.zf := rfl
@[simp] theorem advance_sf (s : State) : (advance s).sf = s.sf := rfl
@[simp] theorem advance_mem (s : State) : (advance s).mem = s.mem := rfl
@[simp] theorem advance_program (s : State) : (advance s).program = s.program := rfl
@[simp] theorem advance_pc (s : State) : (advance s).pc = s.pc + 1 := rfl
@[simp] theorem advance_ir (s : State) : (advance s).ir = s.ir := rfl
@[simp] theorem advance_executed (s : State) : (advance s).executed = s.executed + 1 := rfl
@[simp] theorem advance_running (s : State) : (advance s).running = s.running := rfl
@[simp] theorem advance_lastError (s : State) : (advance s).lastError = s.lastError := rfl

end Sys2Proof.Machine
end

