-- ==== Sys2Proof/Laws/Memory.lean ====
section
/-! SUPPORT. The laws of registers and of memory: read after write, the frame of a write, the key set, and that every
memory operation keeps the canonical form. -/

namespace Sys2Proof.Machine

open Sys2Proof

/-- At the machine's XLEN `wrap` is the identity (spec/00_scope.md R8, R16). -/
@[simp] theorem wrap_eq (v : Int) : wrap v = v := rfl

theorem get_set (x : Regs) (r q : Reg) (v : Int) : (x.set r v).get q = if r = q then v else x.get q := by
  cases r <;> cases q <;> rfl

/-- What a register read gives after a register write. -/
theorem readReg_writeReg (s : State) (r q : Reg) (v : Int) :
    readReg (writeReg s r v) q = if r = q then v else readReg s q := get_set s.regs r q v

/-- Two register files with the same four values are the same file. -/
theorem regs_ext {x y : Regs} (h : ∀ r, x.get r = y.get r) : x = y := by
  have h1 := h .eax
  have h2 := h .ebx
  have h3 := h .ecx
  have h4 := h .edx
  cases x
  cases y
  simp_all [Regs.get]

theorem inRange_iff (a : Int) : inRange a = true ↔ 0 ≤ a ∧ a < 4096 := by
  simp only [inRange, Bool.and_eq_true, decide_eq_true_eq]
  exact Iff.rfl

/-- What a lookup gives after an insertion, in any memory. -/
theorem lookup_insert (m : Memory) (a k : Nat) (v : Int) :
    Memory.lookup (Memory.insert m a v) k = if a = k then some v else Memory.lookup m k := by
  induction m with
  | nil => simp [Memory.insert, Memory.lookup]
  | cons p m ih =>
    obtain ⟨b, w⟩ := p
    simp only [Memory.insert]
    split
    · simp [Memory.lookup]
    · split
      · next _ h =>
        subst h
        simp only [Memory.lookup]
        split <;> rfl
      · next _ h =>
        simp only [Memory.lookup, ih]
        by_cases hb : b = k
        · rw [if_pos hb, if_pos hb, if_neg (fun e => h (e.trans hb.symm))]
        · rw [if_neg hb, if_neg hb]

/-- The keys after an insertion. -/
theorem mem_keys_insert (m : Memory) (a k : Nat) (v : Int) :
    k ∈ Memory.keys (Memory.insert m a v) ↔ k = a ∨ k ∈ Memory.keys m := by
  induction m with
  | nil => simp [Memory.insert, Memory.keys]
  | cons p m ih =>
    obtain ⟨b, w⟩ := p
    simp only [Memory.insert]
    split
    · simp [Memory.keys]
    · split
      · next _ h => subst h; simp [Memory.keys]
      · simp only [Memory.keys, List.map_cons, List.mem_cons] at ih ⊢
        rw [ih]
        tauto

/-- An insertion below 4096 keeps the canonical form. -/
theorem insert_wf {m : Memory} {a : Nat} (v : Int) (ha : a < Config.memSize) (h : Memory.wf m) :
    Memory.wf (Memory.insert m a v) := by
  refine ⟨?_, fun k hk => ?_⟩
  · obtain ⟨h, -⟩ := h
    induction m with
    | nil => simp [Memory.insert, Memory.keys]
    | cons p m ih =>
      obtain ⟨b, w⟩ := p
      simp only [Memory.keys, List.map_cons, List.pairwise_cons] at h
      obtain ⟨hb, ht⟩ := h
      simp only [Memory.insert]
      split
      · next hlt =>
        simp only [Memory.keys, List.map_cons, List.pairwise_cons, List.mem_cons, forall_eq_or_imp]
        exact ⟨⟨hlt, fun k hk => hlt.trans (hb k hk)⟩, hb, ht⟩
      · split
        · next _ h => subst h; simp only [Memory.keys, List.map_cons, List.pairwise_cons]; exact ⟨hb, ht⟩
        · next h1 h2 =>
          have hk := mem_keys_insert m a
          simp only [Memory.keys, List.map_cons, List.pairwise_cons] at hk ⊢
          refine ⟨fun k hkm => ?_, ih ht⟩
          rcases (hk k v).1 hkm with rfl | hk
          · omega
          · exact hb k hk
  · rcases (mem_keys_insert m a k v).1 hk with rfl | hk
    · exact ha
    · exact h.2 k hk

/-- A key has a value, and only a key has. -/
theorem lookup_eq_none_iff (m : Memory) (k : Nat) : Memory.lookup m k = none ↔ k ∉ Memory.keys m := by
  induction m with
  | nil => simp [Memory.lookup, Memory.keys]
  | cons p m ih =>
    obtain ⟨b, w⟩ := p
    simp only [Memory.lookup, Memory.keys, List.map_cons, List.mem_cons] at ih ⊢
    split
    · next h => simp [h]
    · next h => rw [ih]; simp [Ne.symm h]

/-- In a memory in canonical form the lookup of a listed key gives the listed value. -/
theorem lookup_of_mem {m : Memory} {k : Nat} {v : Int} (h : Memory.wf m) (hm : (k, v) ∈ m) :
    Memory.lookup m k = some v := by
  obtain ⟨h, -⟩ := h
  induction m with
  | nil => simp at hm
  | cons p m ih =>
    obtain ⟨b, w⟩ := p
    simp only [Memory.keys, List.map_cons, List.pairwise_cons] at h
    simp only [Memory.lookup]
    rcases List.mem_cons.1 hm with heq | hm
    · cases heq
      simp
    · have hlt := h.1 k (List.mem_map.2 ⟨(k, v), hm, rfl⟩)
      rw [if_neg (by omega)]
      exact ih hm h.2

/-- What the value under a key is after a write. -/
theorem lookup_memWrite (s : State) (a : Int) (v : Int) (k : Nat) :
    Memory.lookup (memWrite s a v).mem k = if a = k ∧ k < 4096 then some (wrap v) else Memory.lookup s.mem k := by
  rw [memWrite_mem]
  by_cases ha : inRange a = true
  · have := (inRange_iff a).1 ha
    rw [if_pos ha, lookup_insert]
    by_cases hk : a.toNat = k
    · rw [if_pos hk, if_pos (by omega)]
    · rw [if_neg hk, if_neg (by omega)]
  · have := mt (inRange_iff a).2 ha
    rw [if_neg ha, if_neg (by omega)]

/-- What a read gives after a write: everything a write does to the reads of memory. -/
theorem memRead_memWrite (s : State) (a b : Int) (v : Int) :
    memRead (memWrite s a v) b = if a = b ∧ 0 ≤ b ∧ b < 4096 then wrap v else memRead s b := by
  unfold memRead
  by_cases hb : inRange b = true
  · have := (inRange_iff b).1 hb
    rw [if_pos hb, if_pos hb, lookup_memWrite]
    by_cases h : a = b
    · rw [if_pos (by omega), if_pos (by omega)]
      rfl
    · rw [if_neg (by omega), if_neg (by omega)]
  · have := mt (inRange_iff b).2 hb
    rw [if_neg hb, if_neg hb, if_neg (by omega)]

/-- Every write keeps the canonical form. -/
theorem memWrite_wf {s : State} (a : Int) (v : Int) (h : Memory.wf s.mem) : Memory.wf (memWrite s a v).mem := by
  rw [memWrite_mem]
  split
  · next ha =>
    have := (inRange_iff a).1 ha
    exact insert_wf _ (by simp only [Config.memSize]; omega) h
  · exact h

/-- A register write leaves every read of memory alone. -/
@[simp] theorem memRead_writeReg (s : State) (r : Reg) (v : Int) (a : Int) :
    memRead (writeReg s r v) a = memRead s a := rfl

/-- A memory write leaves every register alone. -/
@[simp] theorem readReg_memWrite (s : State) (a : Int) (v : Int) (r : Reg) :
    readReg (memWrite s a v) r = readReg s r := by simp [readReg]

/-- Reset memory is in canonical form. -/
theorem reset_mem_wf : Memory.wf State.reset.mem := by decide

end Sys2Proof.Machine
end

