-- ==== Sys2Proof/Laws/Operands.lean ====
section
/-! SUPPORT. What the resolver's read and write can do, said once: a write of a place changes that place and nothing else. -/

namespace Sys2Proof.Machine

open Sys2Proof

/-! ## The control fields and the flags after a write -/

@[simp] theorem writePlace_zf (p : Place) (v : Int) (s : State) : (writePlace p v s).zf = s.zf := by
  cases p <;> simp [writePlace]
@[simp] theorem writePlace_sf (p : Place) (v : Int) (s : State) : (writePlace p v s).sf = s.sf := by
  cases p <;> simp [writePlace]
@[simp] theorem writePlace_program (p : Place) (v : Int) (s : State) : (writePlace p v s).program = s.program := by
  cases p <;> simp [writePlace]
@[simp] theorem writePlace_pc (p : Place) (v : Int) (s : State) : (writePlace p v s).pc = s.pc := by
  cases p <;> simp [writePlace]
@[simp] theorem writePlace_ir (p : Place) (v : Int) (s : State) : (writePlace p v s).ir = s.ir := by
  cases p <;> simp [writePlace]
@[simp] theorem writePlace_executed (p : Place) (v : Int) (s : State) : (writePlace p v s).executed = s.executed := by
  cases p <;> simp [writePlace]
@[simp] theorem writePlace_running (p : Place) (v : Int) (s : State) : (writePlace p v s).running = s.running := by
  cases p <;> simp [writePlace]
@[simp] theorem writePlace_lastError (p : Place) (v : Int) (s : State) :
    (writePlace p v s).lastError = s.lastError := by
  cases p <;> simp [writePlace]

@[simp] theorem writeOp_zf (o : Operand) (v : Int) (s : State) : (writeOp o v s).zf = s.zf := writePlace_zf _ v s
@[simp] theorem writeOp_sf (o : Operand) (v : Int) (s : State) : (writeOp o v s).sf = s.sf := writePlace_sf _ v s
@[simp] theorem writeOp_program (o : Operand) (v : Int) (s : State) : (writeOp o v s).program = s.program :=
  writePlace_program _ v s
@[simp] theorem writeOp_pc (o : Operand) (v : Int) (s : State) : (writeOp o v s).pc = s.pc := writePlace_pc _ v s
@[simp] theorem writeOp_ir (o : Operand) (v : Int) (s : State) : (writeOp o v s).ir = s.ir := writePlace_ir _ v s
@[simp] theorem writeOp_executed (o : Operand) (v : Int) (s : State) : (writeOp o v s).executed = s.executed :=
  writePlace_executed _ v s
@[simp] theorem writeOp_running (o : Operand) (v : Int) (s : State) : (writeOp o v s).running = s.running :=
  writePlace_running _ v s
@[simp] theorem writeOp_lastError (o : Operand) (v : Int) (s : State) : (writeOp o v s).lastError = s.lastError :=
  writePlace_lastError _ v s

/-! ## Registers and memory after a write -/

/-- Every register after a write of a place. -/
theorem readReg_writePlace (p : Place) (v : Int) (s : State) (r : Reg) :
    readReg (writePlace p v s) r = if p = .register r then wrap v else readReg s r := by
  cases p with
  | register q => simp [writePlace, readReg_writeReg]
  | cell a => simp [writePlace]
  | literal n => simp [writePlace]

/-- Every read of memory after a write of a place. -/
theorem memRead_writePlace (p : Place) (v : Int) (s : State) (a : Int) :
    memRead (writePlace p v s) a = if p = .cell a ∧ 0 ≤ a ∧ a < 4096 then wrap v else memRead s a := by
  cases p with
  | register q => simp [writePlace]
  | cell b => simp [writePlace, memRead_memWrite]
  | literal n => simp [writePlace]

/-- The value under every key after a write of a place. -/
theorem lookup_writePlace (p : Place) (v : Int) (s : State) (k : Nat) :
    Memory.lookup (writePlace p v s).mem k =
      if p = .cell k ∧ k < 4096 then some (wrap v) else Memory.lookup s.mem k := by
  cases p with
  | register q => simp [writePlace]
  | cell b => simp [writePlace, lookup_memWrite]
  | literal n => simp [writePlace]

/-- All a write of a place does to registers and memory. -/
theorem writePlace_writes (p : Place) (v : Int) (s : State) : WritesPlace p v s (writePlace p v s) :=
  ⟨readReg_writePlace p v s, memRead_writePlace p v s, lookup_writePlace p v s⟩

/-- All an operand's write does to registers and memory. -/
theorem writeOp_writes (o : Operand) (v : Int) (s : State) : WritesPlace (resolve o s) v s (writeOp o v s) :=
  writePlace_writes _ v s

/-- A write of a place keeps memory's canonical form. -/
theorem writePlace_wf {s : State} (p : Place) (v : Int) (h : Memory.wf s.mem) : Memory.wf (writePlace p v s).mem := by
  cases p with
  | register q => exact h
  | cell a => exact memWrite_wf a v h
  | literal n => exact h

/-- An operand's write keeps memory's canonical form. -/
theorem writeOp_wf {s : State} (o : Operand) (v : Int) (h : Memory.wf s.mem) : Memory.wf (writeOp o v s).mem :=
  writePlace_wf _ v h

/-! ## Reads that see only registers and memory -/

/-- The place of an operand depends on the registers only. -/
theorem resolve_congr {s t : State} (o : Operand) (h : ∀ r, readReg t r = readReg s r) : resolve o t = resolve o s := by
  cases o <;> simp [resolve, h]

/-- The read of an operand depends on the registers and the reads of memory only. -/
theorem readOp_congr {s t : State} (o : Operand) (hr : ∀ r, readReg t r = readReg s r)
    (hm : ∀ a, memRead t a = memRead s a) : readOp o t = readOp o s := by
  cases o <;> simp [readOp, readPlace, resolve, hr, hm]

/-- The fetch does not change what an operand reads. -/
@[simp] theorem readOp_latch (o : Operand) (r : InstrRecord) (s : State) : readOp o (latch r s) = readOp o s := by
  cases o <;> rfl

end Sys2Proof.Machine
end

