-- ==== Sys2Proof/Laws/Exec.lean ====
section
/-! SUPPORT. What executing an instruction can do, said once for all 16: it completes, and its next state is the old one
with a write of operand1's place, flags of one result, or a redirection of `pc`. -/

namespace Sys2Proof.Machine

open Sys2Proof

/-- The value an instruction writes to its first operand, if it writes one. -/
def resultOf (i : Instr) (s : State) : Option Int :=
  match i with
  | .mov _ b => some (readOp b s)
  | .add a b => some (wrap (readOp a s + readOp b s))
  | .sub a b => some (wrap (readOp a s - readOp b s))
  | .mul a b => some (wrap (readOp a s * readOp b s))
  | .div a b => if readOp b s = 0 then none else some (wrap (tdiv (readOp a s) (readOp b s)))
  | .and a b => some (band (readOp a s) (readOp b s))
  | .or a b => some (bor (readOp a s) (readOp b s))
  | .xor a b => some (bxor (readOp a s) (readOp b s))
  | .not a _ => some (bnot (readOp a s))
  | .inc a _ => some (wrap (readOp a s + 1))
  | .cmp _ _ | .jmp _ _ | .jz _ _ | .jnz _ _ | .js _ _ | .jns _ _ => none

/-- The result an instruction sets the flags from, if it sets them. -/
def flagsOf (i : Instr) (s : State) : Option Int :=
  match i with
  | .add a b => some (wrap (readOp a s + readOp b s))
  | .sub a b => some (wrap (readOp a s - readOp b s))
  | .cmp a b => some (wrap (readOp a s - readOp b s))
  | .mov _ _ | .mul _ _ | .div _ _ | .and _ _ | .or _ _ | .xor _ _ | .not _ _ | .inc _ _ | .jmp _ _ | .jz _ _
  | .jnz _ _ | .js _ _ | .jns _ _ => none

/-- The state after the optional write of operand1. -/
def writeResult (i : Instr) (s : State) : State :=
  match resultOf i s with
  | some v => writeOp i.operand1 v s
  | none => s

/-- The state after an optional flag write. -/
def writeFlags (f : Option Int) (s : State) : State :=
  match f with
  | some r => setFlags r s
  | none => s

/-- The next state of every instruction. -/
def execState (i : Instr) (s : State) : State :=
  redirectIf (jumpTaken i s) (readOp i.operand1 s) (writeFlags (flagsOf i s) (writeResult i s))

/-- Every instruction completes, and its next state is a write of operand1, then the flags of one result, then a
redirection, each where the instruction has it. -/
theorem exec_eq (i : Instr) (s : State) : exec i s = .next (execState i s) := by
  cases i
  case div a b =>
    by_cases h : readOp b s = 0
    · simp [exec, execDiv, h, execState, writeResult, resultOf, writeFlags, flagsOf, jumpTaken, Instr.mnemonic, redirectIf]
    · simp [exec, execDiv, h, execState, writeResult, resultOf, writeFlags, flagsOf, jumpTaken, Instr.mnemonic,
        redirectIf, Instr.operand1]
  all_goals rfl

/-- The next state of an instruction, read off an equation of `exec`. -/
theorem exec_next {i : Instr} {s t : State} (h : exec i s = .next t) : t = execState i s := by
  rw [exec_eq] at h
  exact (Host.Outcome.next.inj h).symm

/-- The fields no instruction names are unchanged. -/
theorem execState_control (i : Instr) (s : State) : SameControl s (execState i s) := by
  unfold execState redirectIf writeFlags writeResult SameControl
  split <;> split <;> split <;> simp

/-- `pc` changes only by a taken jump, to one less than the target. -/
theorem execState_pc (i : Instr) (s : State) :
    (execState i s).pc = if jumpTaken i s then readOp i.operand1 s - 1 else s.pc := by
  unfold execState redirectIf writeFlags writeResult
  split <;> split <;> split <;> simp

/-- The zero flag is the old one or that of the result. -/
theorem execState_zf (i : Instr) (s : State) :
    (execState i s).zf = match flagsOf i s with | some r => r == 0 | none => s.zf := by
  unfold execState redirectIf writeFlags writeResult
  split <;> split <;> split <;> simp_all

/-- The sign flag is the old one or that of the result. -/
theorem execState_sf (i : Instr) (s : State) :
    (execState i s).sf = match flagsOf i s with | some r => decide (r < 0) | none => s.sf := by
  unfold execState redirectIf writeFlags writeResult
  split <;> split <;> split <;> simp_all

/-- Registers and memory are those after the write of operand1. -/
theorem execState_data (i : Instr) (s : State) :
    (execState i s).regs = (writeResult i s).regs ∧ (execState i s).mem = (writeResult i s).mem := by
  unfold execState redirectIf writeFlags
  split <;> split <;> simp

/-- Every instruction keeps memory's canonical form. -/
theorem execState_wf {i : Instr} {s : State} (h : Memory.wf s.mem) : Memory.wf (execState i s).mem := by
  rw [(execState_data i s).2]
  unfold writeResult
  split
  · exact writeOp_wf _ _ h
  · exact h

end Sys2Proof.Machine
end

