-- ==== Sys2Proof/Laws/Cycle.lean ====
section
/-! SUPPORT. What a step can do, said once (`stepCall_cases`): it halts, fails, or runs the instruction of the record at
`pc`; and what it does in each case. -/

namespace Sys2Proof.Machine

open Sys2Proof

/-- The halted condition as a proposition. -/
theorem haltedCondition_iff (s : State) :
    haltedCondition s = true ↔ s.running = false ∨ (s.program.length : Int) ≤ s.pc := by
  simp [haltedCondition]

/-- Where the halted condition does not hold and `pc` is not negative, a record is fetched. -/
theorem fetch_isSome {s : State} (h : haltedCondition s = false) (hp : 0 ≤ s.pc) :
    ∃ r, fetch s = some r ∧ s.program[s.pc.toNat]? = some r := by
  have hn := mt (haltedCondition_iff s).2 (by simp [h])
  push Not at hn
  have hlt : s.pc.toNat < s.program.length := by omega
  exact ⟨s.program[s.pc.toNat], by simp [fetch, hp, hlt], by simp [hlt]⟩

/-- Executing a record with an instruction: it continues, to the instruction's state advanced. -/
theorem executeRecord_eq {r : InstrRecord} {i : Instr} (s : State) (h : decodeRecord r = .instr i) :
    executeRecord r s = .next (.continued, advance (execState i s)) := by
  simp [executeRecord, h, exec_eq]

/-- A step in the halted condition. -/
theorem stepCall_halted {s : State} (h : haltedCondition s = true) : stepCall s = .next (.halted, haltStep s) := by
  simp [stepCall, h]

/-- A step at a negative `pc`. -/
theorem stepCall_failed {s : State} (h : haltedCondition s = false) (hp : s.pc < 0) :
    stepCall s = .next (.failed .invalidPc, takeFailure .invalidPc s) := by
  simp [stepCall, h, hp]

/-- A step that executes. -/
theorem stepCall_execute {s : State} {r : InstrRecord} {i : Instr} (h : haltedCondition s = false) (hp : 0 ≤ s.pc)
    (hr : s.program[s.pc.toNat]? = some r) (hi : decodeRecord r = .instr i) :
    stepCall s = .next (.continued, advance (execState i (latch r s))) := by
  have hf : fetch s = some r := by simp [fetch, hp, hr]
  simp [stepCall, h, not_lt.2 hp, hf, executeRecord_eq _ hi]

/-- Everything a step that answers a next state can have done. -/
theorem stepCall_cases {s t : State} {o : StepOutcome} (h : stepCall s = .next (o, t)) :
    (haltedCondition s = true ∧ o = .halted ∧ t = haltStep s) ∨
    (haltedCondition s = false ∧ s.pc < 0 ∧ o = .failed .invalidPc ∧ t = takeFailure .invalidPc s) ∨
    (haltedCondition s = false ∧ 0 ≤ s.pc ∧ o = .continued ∧
      ∃ r i, s.program[s.pc.toNat]? = some r ∧ decodeRecord r = .instr i ∧ t = advance (execState i (latch r s))) := by
  by_cases hh : haltedCondition s = true
  · rw [stepCall_halted hh] at h
    cases h
    exact .inl ⟨hh, rfl, rfl⟩
  · have hh : haltedCondition s = false := by simpa using hh
    rcases lt_or_ge s.pc 0 with hp | hp
    · rw [stepCall_failed hh hp] at h
      cases h
      exact .inr (.inl ⟨hh, hp, rfl, rfl⟩)
    · obtain ⟨r, hf, hr⟩ := fetch_isSome hh hp
      simp only [stepCall, hh, not_lt.2 hp, hf, executeRecord] at h
      cases hd : decodeRecord r with
      | instr i =>
        simp [hd, exec_eq] at h
        obtain ⟨rfl, rfl⟩ := h
        exact .inr (.inr ⟨hh, hp, rfl, r, i, hr, hd, rfl⟩)
      | rejected w => cases w <;> simp [hd] at h

/-- The step's next state is that of its call. -/
theorem step_eq_next {s t : State} (h : step s = .next t) : ∃ o, stepCall s = .next (o, t) := by
  unfold step stepState at h
  split at h
  · next r hr =>
    cases h
    exact ⟨r.1, hr⟩
  · cases h
  · cases h

/-- The call's next state is the step's. -/
theorem step_of_stepCall {s t : State} {o : StepOutcome} (h : stepCall s = .next (o, t)) : step s = .next t := by
  simp [step, h, stepState]

end Sys2Proof.Machine
end

