-- ==== Sys2Proof/Laws/Decode.lean ====
section
/-! SUPPORT. The laws of the decoder and the encoder: lines, tokens, decimal literals, token classes, records. -/

namespace Sys2Proof

/-! ## Lines -/

/-- A text without a line feed is one line. -/
theorem splitLines_of_line {l : Text} (h : '\n' ∉ l) : splitLines l = [l] := by
  induction l with
  | nil => rfl
  | cons c cs ih =>
    simp only [List.mem_cons, not_or] at h
    simp [splitLines, Ne.symm h.1, ih h.2]

/-- The first line of a text that begins with a line and a line feed. -/
theorem splitLines_append {l : Text} (h : '\n' ∉ l) (t : Text) :
    splitLines (l ++ '\n' :: t) = l :: splitLines t := by
  induction l with
  | nil => simp [splitLines]
  | cons c cs ih =>
    simp only [List.mem_cons, not_or] at h
    simp [splitLines, Ne.symm h.1, ih h.2]

/-- Splitting is the inverse of joining. -/
theorem splitLines_joinLines {ls : List Text} (hne : ls ≠ []) (h : ∀ l ∈ ls, '\n' ∉ l) :
    splitLines (Machine.joinLines ls) = ls := by
  induction ls with
  | nil => exact absurd rfl hne
  | cons l ls ih =>
    cases ls with
    | nil => simp [Machine.joinLines, splitLines_of_line (h l (by simp))]
    | cons m ms =>
      simp only [Machine.joinLines]
      rw [splitLines_append (h l (by simp)), ih (by simp) (fun k hk => h k (List.mem_cons_of_mem _ hk))]

/-! ## Tokens -/

/-- Leading white space makes no token. -/
theorem tokens_space (w l : Text) (hw : ∀ c ∈ w, isSpace c = true) : tokens (w ++ l) = tokens l := by
  induction w with
  | nil => rfl
  | cons c cs ih =>
    simp only [List.mem_cons, forall_eq_or_imp] at hw
    simp [tokens, hw.1, ih hw.2]

/-- White space alone makes no token. -/
theorem tokens_all_space (w : Text) (hw : ∀ c ∈ w, isSpace c = true) : tokens w = [] := by
  simpa [tokens] using tokens_space w [] hw

/-- A run of non-white-space characters before white space or the end is a token. -/
theorem tokens_word {u : Text} (hne : u ≠ []) (hu : ∀ c ∈ u, isSpace c = false) (l : Text)
    (hl : ∀ c, l.head? = some c → isSpace c = true) : tokens (u ++ l) = u :: tokens l := by
  induction u with
  | nil => exact absurd rfl hne
  | cons c cs ih =>
    simp only [List.mem_cons, forall_eq_or_imp] at hu
    cases cs with
    | nil =>
      cases l with
      | nil => simp [tokens, hu.1]
      | cons d ds =>
        have hd : isSpace d = true := hl d rfl
        simp only [List.cons_append, List.nil_append, tokens, hu.1, hd, Bool.false_eq_true, if_false, if_true,
          List.head?_cons]
        cases tokens ds <;> simp [hd]
    | cons e es =>
      have he : isSpace e = false := hu.2 e (by simp)
      have := ih (by simp) hu.2
      rw [List.cons_append, tokens, hu.1, this]
      simp [he]

/-- Trailing white space makes no token. -/
theorem tokens_append_space (l w : Text) (hw : ∀ c ∈ w, isSpace c = true) : tokens (l ++ w) = tokens l := by
  induction l with
  | nil => simpa [tokens] using tokens_all_space w hw
  | cons c cs ih =>
    simp only [List.cons_append, tokens, ih]
    split
    · rfl
    · cases cs with
      | nil =>
        simp only [List.nil_append, tokens, List.head?_nil]
        cases w.head? <;> rfl
      | cons d ds => rfl

/-- Every line that is not white space has a token. -/
theorem tokens_ne_nil {l : Text} {c : Char} (hc : c ∈ l) (h : isSpace c = false) : tokens l ≠ [] := by
  induction l with
  | nil => simp at hc
  | cons d ds ih =>
    simp only [tokens]
    rcases List.mem_cons.1 hc with rfl | hc
    · simp only [h, Bool.false_eq_true, if_false]
      split
      · split <;> simp
      · simp
    · split
      · exact ih hc
      · split
        · split <;> simp
        · simp

/-! ## Stripping and dropping -/

/-- Stripping keeps a text whose first and last characters are not white space. -/
theorem strip_append (w u v : Text) (hw : ∀ c ∈ w, isSpace c = true) (hv : ∀ c ∈ v, isSpace c = true)
    (h1 : ∀ c, u.head? = some c → isSpace c = false) (h2 : ∀ c, u.getLast? = some c → isSpace c = false) :
    u ≠ [] → strip (w ++ u ++ v) = u := by
  intro hne
  unfold strip
  have e1 : (w ++ u ++ v).dropWhile isSpace = u ++ v := by
    rw [List.append_assoc, List.dropWhile_append_of_pos hw]
    cases u with
    | nil => exact absurd rfl hne
    | cons c cs => simp [h1 c rfl]
  rw [e1, List.reverse_append, List.dropWhile_append_of_pos (by simpa using hv)]
  cases hr : u.reverse with
  | nil => simp_all
  | cons c cs =>
    have : u.getLast? = some c := by rw [List.getLast?_eq_head?_reverse, hr]; rfl
    simp only [List.dropWhile_cons, h2 c this, Bool.false_eq_true, if_false]
    rw [← hr, List.reverse_reverse]

/-- A stripped line begins with the line's first character that is not white space. -/
theorem strip_head (w l : Text) (c : Char) (hw : ∀ b ∈ w, isSpace b = true) (hc : isSpace c = false) :
    ∃ m, strip (w ++ c :: l) = c :: m := by
  unfold strip
  rw [List.dropWhile_append_of_pos hw, List.dropWhile_cons, hc]
  simp only [Bool.false_eq_true, if_false, List.reverse_cons]
  rw [List.dropWhile_append]
  split
  · simp [hc]
  · simp

/-- A line of white space is stripped to nothing. -/
theorem strip_all_space (w : Text) (hw : ∀ c ∈ w, isSpace c = true) : strip w = [] := by
  unfold strip
  have : w.dropWhile isSpace = [] := List.dropWhile_eq_nil_iff.2 hw
  simp [this]

/-- A stripped line that is not empty has a first character that is not white space. -/
theorem strip_cons {l m : Text} {c : Char} (h : strip l = c :: m) : isSpace c = false := by
  unfold strip at h
  cases hd : l.dropWhile isSpace with
  | nil => simp [hd] at h
  | cons d ds =>
    have hsp : isSpace d = false := by
      have := List.head_dropWhile_not (p := isSpace) (l := l) (by simp [hd])
      simpa [hd] using this
    rw [hd, List.reverse_cons, List.dropWhile_append] at h
    split at h
    · simp [hsp] at h
      rw [← h.1]; exact hsp
    · simp at h
      rw [← h.1]; exact hsp

/-- A line's tokens are those of the stripped line. -/
theorem tokens_strip (l : Text) : tokens (strip l) = tokens l := by
  have h1 : ∀ m : Text, tokens (m.dropWhile isSpace) = tokens m := by
    intro m
    have := tokens_space (m.takeWhile isSpace) (m.dropWhile isSpace) (fun c hc => List.mem_takeWhile_imp hc)
    rwa [List.takeWhile_append_dropWhile, eq_comm] at this
  have h2 : ∀ m : Text, tokens (m.reverse.dropWhile isSpace).reverse = tokens m := by
    intro m
    have := tokens_append_space (m.reverse.dropWhile isSpace).reverse (m.reverse.takeWhile isSpace).reverse
      (fun c hc => List.mem_takeWhile_imp (List.mem_reverse.1 hc))
    rwa [← List.reverse_append, List.takeWhile_append_dropWhile, List.reverse_reverse, eq_comm] at this
  rw [strip, h2, h1]

/-- A line is dropped by the decoder exactly when it is blank or a comment. -/
theorem decodeLine_dropped_iff (n : Nat) (l : Text) : decodeLine n l = .dropped ↔ isDropped l = true := by
  unfold decodeLine
  split
  · next h => simp [h]
  · next h =>
    have hs : ∃ c m, strip l = c :: m := by
      cases hs : strip l with
      | nil => simp [isDropped, hs] at h
      | cons c m => exact ⟨c, m, rfl⟩
    obtain ⟨c, m, hs⟩ := hs
    have hne := tokens_ne_nil (l := strip l) (c := c) (by simp [hs]) (strip_cons hs)
    cases ht : tokens (strip l) with
    | nil => exact absurd ht hne
    | cons op rest =>
      simp only [decodeTokens, h]
      cases mnemonicOf? op with
      | none => simp
      | some k => simp only; split <;> simp

/-! ## Decimal literals -/

/-- The decimal value of digits in order. -/
def digitsValue (ds : List Nat) : Nat := ds.foldl (fun a d => a * 10 + d) 0

/-- A digit's character has the digit's value. -/
theorem digit_digitChar {d : Nat} (h : d < 10) : digit? (digitChar d) = some d := by
  interval_cases d <;> rfl

/-- A digit character is the character of its value. -/
theorem digitChar_of_digit {c : Char} {d : Nat} (h : digit? c = some d) : d < 10 ∧ c = digitChar d := by
  unfold digit? at h
  split at h
  · next hc =>
    simp only [Bool.and_eq_true, decide_eq_true_eq] at hc
    cases h
    refine ⟨by omega, ?_⟩
    unfold digitChar
    rw [show 48 + (c.toNat - 48) = c.toNat by omega, Char.ofNat_toNat]
  · cases h

/-- Reading a run of digits gives its decimal value after the digits already read. -/
theorem digitsFrom_map (acc : Nat) (ds : List Nat) (h : ∀ d ∈ ds, d < 10) :
    digitsFrom acc (ds.map digitChar) = some (ds.foldl (fun a d => a * 10 + d) acc) := by
  induction ds generalizing acc with
  | nil => rfl
  | cons d ds ih =>
    simp only [List.mem_cons, forall_eq_or_imp] at h
    simp [digitsFrom, digit_digitChar h.1, ih _ h.2]

/-- What a run read as digits is. -/
theorem digits_of_digitsFrom {acc n : Nat} {t : Text} (h : digitsFrom acc t = some n) :
    ∃ ds : List Nat, (∀ d ∈ ds, d < 10) ∧ t = ds.map digitChar ∧ n = ds.foldl (fun a d => a * 10 + d) acc := by
  induction t generalizing acc with
  | nil => cases h; exact ⟨[], by simp, rfl, rfl⟩
  | cons c cs ih =>
    simp only [digitsFrom] at h
    cases hd : digit? c with
    | none => simp [hd] at h
    | some d =>
      rw [hd] at h
      obtain ⟨ds, h1, h2, h3⟩ := ih h
      obtain ⟨hlt, hc⟩ := digitChar_of_digit hd
      exact ⟨d :: ds, by simpa [hlt] using h1, by simp [hc, h2], h3⟩

/-- The digits of a decimal text, before the text already written. -/
theorem decimalFrom_digits (fuel n : Nat) (acc : Text) (h : n < fuel) :
    ∃ ds : List Nat, ds ≠ [] ∧ (∀ d ∈ ds, d < 10) ∧ decimalFrom fuel n acc = ds.map digitChar ++ acc ∧
      digitsValue ds = n := by
  induction fuel generalizing n acc with
  | zero => omega
  | succ f ih =>
    simp only [decimalFrom]
    split
    · next hn => exact ⟨[n], by simp, by simpa using hn, rfl, by simp [digitsValue]⟩
    · next hn =>
      obtain ⟨ds, h1, h2, h3, h4⟩ := ih (n / 10) (digitChar (n % 10) :: acc) (by omega)
      refine ⟨ds ++ [n % 10], by simp, ?_, by rw [h3]; simp, ?_⟩
      · intro d hd
        rcases List.mem_append.1 hd with hd | hd
        · exact h2 d hd
        · simp only [List.mem_singleton] at hd
          omega
      · have e : digitsValue (ds ++ [n % 10]) = digitsValue ds * 10 + n % 10 := by simp [digitsValue]
        rw [e, h4]
        omega

/-- A natural number's text is one or more digits with its value. -/
theorem natText_digits (n : Nat) :
    ∃ ds : List Nat, ds ≠ [] ∧ (∀ d ∈ ds, d < 10) ∧ natText n = ds.map digitChar ∧ digitsValue ds = n := by
  simpa [natText] using decimalFrom_digits (n + 1) n [] (by omega)

/-- A run of digits is a literal with its value. -/
theorem natLiteral_map {ds : List Nat} (hne : ds ≠ []) (h : ∀ d ∈ ds, d < 10) :
    natLiteral? (ds.map digitChar) = some (digitsValue ds) := by
  simp [natLiteral?, hne, digitsFrom_map 0 ds h, digitsValue]

/-- A digit character is none of the other characters the grammar names. -/
theorem digitChar_ne {d : Nat} (h : d < 10) :
    digitChar d ≠ '-' ∧ digitChar d ≠ '+' ∧ digitChar d ≠ '[' ∧ digitChar d ≠ ']' ∧ digitChar d ≠ '\n' ∧
      isSpace (digitChar d) = false ∧ isRefusedChar (digitChar d) = false := by
  interval_cases d <;> decide

/-- An unsigned run of digits is an integer literal. -/
theorem intLiteral_digits {ds : List Nat} (hne : ds ≠ []) (h : ∀ d ∈ ds, d < 10) :
    intLiteral? (ds.map digitChar) = some (digitsValue ds : Int) := by
  cases ds with
  | nil => exact absurd rfl hne
  | cons d ds =>
    have hd := digitChar_ne (h d (by simp))
    have := natLiteral_map hne h
    simp only [List.map_cons] at this ⊢
    simp [intLiteral?, hd.1, hd.2.1, this]

/-- Reading an integer's text gives the integer. -/
theorem intLiteral_intText (v : Int) : intLiteral? (intText v) = some v := by
  obtain ⟨ds, h1, h2, h3, h4⟩ := natText_digits v.natAbs
  unfold intText
  split
  · next hneg =>
    have e : -((v.natAbs : Nat) : Int) = v := by omega
    simp only [intLiteral?, if_true, h3, natLiteral_map h1 h2, h4, Option.map_some, e]
  · next hpos =>
    have e : ((v.natAbs : Nat) : Int) = v := by omega
    rw [h3, intLiteral_digits h1 h2, h4, e]

/-- The characters of an integer's text. -/
theorem intText_chars (v : Int) : ∀ c ∈ intText v, c ≠ '[' ∧ c ≠ ']' ∧ c ≠ '\n' ∧ isSpace c = false ∧
    isRefusedChar c = false := by
  obtain ⟨ds, -, h2, h3, -⟩ := natText_digits v.natAbs
  have hd : ∀ c ∈ natText v.natAbs, c ≠ '[' ∧ c ≠ ']' ∧ c ≠ '\n' ∧ isSpace c = false ∧ isRefusedChar c = false := by
    intro c hc
    rw [h3] at hc
    obtain ⟨d, hdm, rfl⟩ := List.mem_map.1 hc
    have := digitChar_ne (h2 d hdm)
    exact ⟨this.2.2.1, this.2.2.2.1, this.2.2.2.2.1, this.2.2.2.2.2.1, this.2.2.2.2.2.2⟩
  intro c hc
  unfold intText at hc
  split at hc
  · rcases List.mem_cons.1 hc with rfl | hc
    · decide
    · exact hd c hc
  · exact hd c hc

/-! ## Token classes -/

/-- A token names a register exactly when it is its name. -/
theorem regOf_eq_some {t : Text} {r : Reg} : regOf? t = some r ↔ t = r.name := by
  constructor
  · intro h
    have := List.find?_some h
    exact (eq_of_beq this).symm
  · rintro rfl
    cases r <;> decide

/-- What stands between brackets. -/
theorem bracketed_eq_some {t u : Text} : bracketed? t = some u ↔ t = '[' :: (u ++ [']']) := by
  cases t with
  | nil => simp [bracketed?]
  | cons c cs =>
    simp only [bracketed?, Bool.and_eq_true, decide_eq_true_eq, beq_iff_eq]
    constructor
    · intro h
      split at h
      · next hc =>
        obtain ⟨rfl, hl⟩ := hc
        cases h
        have hne : cs ≠ [] := by rintro rfl; simp at hl
        have := List.dropLast_append_getLast hne
        rw [List.getLast?_eq_some_getLast hne] at hl
        cases hl' : cs.getLast hne
        simp_all
      · cases h
    · intro h
      obtain ⟨rfl, rfl⟩ := List.cons.inj h
      simp

/-- The first character of an integer literal. -/
theorem intLiteral_head {t : Text} {v : Int} (h : intLiteral? t = some v) :
    ∃ c cs, t = c :: cs ∧ (c = '-' ∨ c = '+' ∨ ∃ d < 10, c = digitChar d) := by
  cases t with
  | nil => simp [intLiteral?] at h
  | cons c cs =>
    refine ⟨c, cs, rfl, ?_⟩
    simp only [intLiteral?] at h
    split at h
    · next hc => exact .inl hc
    · split at h
      · next hc => exact .inr (.inl hc)
      · simp only [natLiteral?, List.isEmpty_cons, Bool.false_eq_true, if_false, digitsFrom] at h
        cases hd : digit? c with
        | none => simp [hd] at h
        | some d => exact .inr (.inr ⟨d, digitChar_of_digit hd⟩)

/-- An integer literal names no register and is not in brackets. -/
theorem intLiteral_shape {t : Text} {v : Int} (h : intLiteral? t = some v) : regOf? t = none ∧ bracketed? t = none := by
  obtain ⟨c, cs, rfl, hc⟩ := intLiteral_head h
  have hc : c ≠ 'e' ∧ c ≠ '[' := by
    rcases hc with rfl | rfl | ⟨d, hd, rfl⟩
    · decide
    · decide
    · interval_cases d <;> decide
  constructor
  · cases hr : regOf? (c :: cs) with
    | none => rfl
    | some r =>
      have := regOf_eq_some.1 hr
      cases r <;> simp_all [Reg.name]
  · simp [bracketed?, hc.2]

/-- A register's name is not in brackets. -/
theorem bracketed_name (r : Reg) : bracketed? r.name = none := by cases r <;> decide

/-- The decoder reads back the token of every descriptor. -/
theorem classify_token (o : Operand) : classify o.token = o := by
  cases o with
  | reg r => simp [Operand.token, classify, regOf_eq_some.2 rfl]
  | ind r =>
    have h1 : regOf? ('[' :: (r.name ++ [']'])) = none := by cases r <;> decide
    simp [Operand.token, classify, h1, bracketed_eq_some.2 rfl, regOf_eq_some.2 rfl]
  | dir n =>
    have hl := intLiteral_intText n
    have h1 : regOf? ('[' :: (intText n ++ [']'])) = none := by
      cases h : regOf? ('[' :: (intText n ++ [']'])) with
      | none => rfl
      | some r =>
        have := regOf_eq_some.1 h
        cases r <;> simp [Reg.name] at this
    have hw : wrap n = n := rfl
    simp [Operand.token, classify, h1, bracketed_eq_some.2 rfl, (intLiteral_shape hl).1, hl, hw]
  | imm n =>
    have hl := intLiteral_intText n
    have hw : wrap n = n := rfl
    simp [Operand.token, classify, (intLiteral_shape hl).1, (intLiteral_shape hl).2, hl, hw]

/-- The characters of an operand token. -/
theorem token_chars (o : Operand) : ∀ c ∈ o.token, c ≠ '\n' ∧ isSpace c = false ∧ isRefusedChar c = false := by
  have hn : ∀ r : Reg, ∀ c ∈ r.name, c ≠ '\n' ∧ isSpace c = false ∧ isRefusedChar c = false := by
    intro r; cases r <;> simp [Reg.name, isSpace, isRefusedChar]
  have hb : ∀ u : Text, (∀ c ∈ u, c ≠ '\n' ∧ isSpace c = false ∧ isRefusedChar c = false) →
      ∀ c ∈ '[' :: (u ++ [']']), c ≠ '\n' ∧ isSpace c = false ∧ isRefusedChar c = false := by
    intro u hu c hc
    rcases List.mem_cons.1 hc with rfl | hc
    · decide
    · rcases List.mem_append.1 hc with hc | hc
      · exact hu c hc
      · rw [List.mem_singleton.1 hc]; decide
  have hi : ∀ n : Int, ∀ c ∈ intText n, c ≠ '\n' ∧ isSpace c = false ∧ isRefusedChar c = false :=
    fun n c hc => (intText_chars n c hc).2.2
  cases o with
  | reg r => exact hn r
  | ind r => exact hb _ (hn r)
  | dir n => exact hb _ (hi n)
  | imm n => exact hi n

/-- No operand token is empty. -/
theorem token_ne_nil (o : Operand) : o.token ≠ [] := by
  have hi : ∀ n : Int, intText n ≠ [] := by
    intro n h
    have := intLiteral_intText n
    rw [h] at this
    simp [intLiteral?] at this
  cases o with
  | reg r => cases r <;> simp [Operand.token, Reg.name]
  | ind r => simp [Operand.token]
  | dir n => simp [Operand.token]
  | imm n => exact hi n

/-- A text of characters the load accepts is no refused token. -/
theorem isRefusedToken_eq_false {t : Text} (h : ∀ c ∈ t, isRefusedChar c = false) : isRefusedToken t = false := by
  simpa [isRefusedToken] using h

/-! ## Mnemonics -/

/-- A token names a mnemonic exactly when its folded text is the mnemonic's spelling. -/
theorem mnemonicOf_eq_some {t : Text} {m : Mnemonic} : mnemonicOf? t = some m ↔ t.map foldCase = m.name := by
  constructor
  · intro h
    have := List.find?_some h
    exact (eq_of_beq this).symm
  · intro h
    unfold mnemonicOf?
    rw [h]
    cases m <;> decide

/-- The characters of a mnemonic's spelling. -/
theorem name_chars (m : Mnemonic) : ∀ c ∈ m.name, c ≠ '\n' ∧ c ≠ ';' ∧ isSpace c = false := by
  cases m <;> simp [Mnemonic.name, isSpace]

/-- The spelling of a mnemonic names it. -/
theorem mnemonicOf_name (m : Mnemonic) : mnemonicOf? m.name = some m := by
  cases m <;> decide

/-- An instruction is built of its mnemonic and its two descriptors. -/
theorem build_parts (i : Instr) : Instr.build i.mnemonic i.operand1 i.operand2 = i := by
  cases i <;> rfl

/-! ## Records and programs -/

/-- A record's source line is the line it was decoded from, under its line number. -/
theorem decodeLine_record {n : Nat} {l : Text} {r : InstrRecord} (h : decodeLine n l = .record r) :
    r.source = l ∧ r.lineNo = n := by
  unfold decodeLine at h
  split at h
  · cases h
  · unfold decodeTokens at h
    split at h
    · cases h
    · split at h
      · cases h
      · simp only at h
        split at h
        · cases h
        · cases h
          exact ⟨rfl, rfl⟩

/-- The tokens of a line hold no white space. -/
theorem tokens_no_space {l t : Text} (h : t ∈ tokens l) : ∀ c ∈ t, isSpace c = false := by
  induction l generalizing t with
  | nil => simp [tokens] at h
  | cons c cs ih =>
    simp only [tokens] at h
    split at h
    · exact ih h
    · next hc =>
      have hc : isSpace c = false := by simpa using hc
      split at h
      · next d u us _ hts =>
        split at h
        · rcases List.mem_cons.1 h with rfl | h
          · simpa using hc
          · exact ih (hts ▸ h)
        · rcases List.mem_cons.1 h with rfl | h
          · intro b hb
            rcases List.mem_cons.1 hb with rfl | hb
            · exact hc
            · exact ih (t := u) (by simp [hts]) b hb
          · exact ih (by rw [hts]; exact List.mem_cons_of_mem _ h)
      · rcases List.mem_cons.1 h with rfl | h
        · simpa using hc
        · exact ih h

/-- Every record decoded from a numbered line is well formed. -/
theorem decodeLine_wf {n : Nat} {l : Text} {r : InstrRecord} (hn : 1 ≤ n) (hl : lineWf l = true)
    (h : decodeLine n l = .record r) : r.wf = true := by
  unfold decodeLine at h
  split at h
  · cases h
  · unfold decodeTokens at h
    split at h
    · cases h
    · next op rest hts =>
      split at h
      · cases h
      · simp only at h
        split at h
        · cases h
        · next hr =>
          cases h
          have hsp : ∀ t ∈ rest, ∀ c ∈ t, isSpace c = false :=
            fun t ht => tokens_no_space (l := strip l) (by rw [hts]; exact List.mem_cons_of_mem _ ht)
          have h1 : ∀ c ∈ rest.headD [], isSpace c = false := by
            cases rest with
            | nil => simp
            | cons a as => exact hsp a (by simp)
          have h2 : ∀ c ∈ rest.tail.headD [], isSpace c = false := by
            cases rest with
            | nil => simp
            | cons a as =>
              cases as with
              | nil => simp
              | cons b bs => exact hsp b (by simp)
          have hr : isRefusedToken (rest.headD []) = false ∧ isRefusedToken (rest.tail.headD []) = false := by
            simpa [not_or] using hr
          have hw : ∀ t : Text, (∀ c ∈ t, isSpace c = false) → isRefusedToken t = false → tokenWf t = true := by
            intro t h1 h2
            refine List.all_eq_true.2 fun c hc => ?_
            have := List.any_eq_false.1 h2 c hc
            simp [h1 c hc, this]
          simp only [InstrRecord.wf, hw _ h1 hr.1, hw _ h2 hr.2, hl]
          simpa using hn

/-- A decoded record has an instruction. -/
theorem decodeRecord_of_decodeLine {n : Nat} {l : Text} {r : InstrRecord} (h : decodeLine n l = .record r) :
    ∃ i, decodeRecord r = .instr i := by
  unfold decodeLine at h
  split at h
  · cases h
  · unfold decodeTokens at h
    split at h
    · cases h
    · split at h
      · cases h
      · simp only at h
        split at h
        · cases h
        · next hr =>
          cases h
          exact ⟨_, by simp only [decodeRecord, hr]; rfl⟩

/-- The instruction of a record has the record's mnemonic. -/
theorem mnemonic_of_decodeRecord {r : InstrRecord} {i : Instr} (h : decodeRecord r = .instr i) :
    i.mnemonic = r.opcode := by
  unfold decodeRecord at h
  split at h
  · cases h
  · cases h
    cases r.opcode <;> rfl

/-- Every record of a decoded list of lines is what its own source line decodes to. -/
theorem decodeLines_records {ls : List Text} {n : Nat} {rs : List InstrRecord} (h : decodeLines n ls = .program rs) :
    ∀ r ∈ rs, decodeLine r.lineNo r.source = .record r := by
  induction ls generalizing n rs with
  | nil => cases h; simp
  | cons l ls ih =>
    simp only [decodeLines] at h
    cases hd : decodeLine n l with
    | dropped => rw [hd] at h; exact ih h
    | rejected w => rw [hd] at h; cases h
    | record q =>
      rw [hd] at h
      simp only at h
      cases hr : decodeLines (n + 1) ls with
      | rejected w => rw [hr] at h; cases h
      | program qs =>
        rw [hr] at h
        cases h
        intro r hm
        rcases List.mem_cons.1 hm with rfl | hm
        · obtain ⟨e1, e2⟩ := decodeLine_record hd
          rw [e1, e2]
          exact hd
        · exact ih hr r hm

end Sys2Proof
end

