-- ==== Sys2Proof/Laws/Interface.lean ====
section
/-! SUPPORT. What the host's calls can do, said once: the executor state by its fields, a continued step, the run driver over
continued steps. -/

namespace Sys2Proof.Machine

open Sys2Proof

/-- An idle machine has no program and is not running. -/
theorem isIdle_iff (s : State) : isIdle s = true ↔ s.program = [] ∧ s.running = false := by
  simp [isIdle]

/-- An idle machine is in the halted condition (spec/10_state.md R33: Idle and Halted behave the same). -/
theorem haltedCondition_of_isIdle {s : State} (h : isIdle s = true) : haltedCondition s = true :=
  (haltedCondition_iff s).2 (.inl ((isIdle_iff s).1 h).2)

/-- The executor state of every state, by its fields. -/
theorem executorState_cases (s : State) :
    (s.lastError ≠ none ∧ executorState s = .failed) ∨
    (s.lastError = none ∧ isIdle s = true ∧ executorState s = .idle) ∨
    (s.lastError = none ∧ isIdle s = false ∧ haltedCondition s = true ∧ executorState s = .halted) ∨
    (s.lastError = none ∧ haltedCondition s = false ∧ executorState s = .running) := by
  cases h1 : s.lastError with
  | some e => exact .inl ⟨by simp, by simp [executorState, h1]⟩
  | none =>
    cases h2 : isIdle s with
    | true => exact .inr (.inl ⟨rfl, rfl, by simp [executorState, h1, h2]⟩)
    | false =>
      cases h3 : haltedCondition s with
      | true => exact .inr (.inr (.inl ⟨rfl, rfl, rfl, by simp [executorState, h1, h2, h3]⟩))
      | false => exact .inr (.inr (.inr ⟨rfl, rfl, by simp [executorState, h1, h2, h3]⟩))

/-- The executor state depends on four fields: no register, flag, memory cell or counter is looked at. -/
theorem executorState_congr {s t : State} (hl : t.lastError = s.lastError) (hp : t.program = s.program)
    (hc : t.pc = s.pc) (hr : t.running = s.running) : executorState t = executorState s := by
  have hi : isIdle t = isIdle s := by simp only [isIdle, hp, hr]
  have hh : haltedCondition t = haltedCondition s := by simp only [haltedCondition, hp, hc, hr]
  simp only [executorState, hl, hi, hh]

/-- What a continued step leaves: the fields no instruction names, and one more in the count. -/
theorem continued_control {s t : State} (h : stepCall s = .next (.continued, t)) :
    haltedCondition s = false ∧ 0 ≤ s.pc ∧ t.program = s.program ∧ t.executed = s.executed + 1 ∧
      t.running = s.running ∧ t.lastError = s.lastError := by
  rcases stepCall_cases h with ⟨_, ho, _⟩ | ⟨_, _, ho, _⟩ | ⟨hh, hp, _, r, i, _, _, rfl⟩
  · cases ho
  · cases ho
  · have hc := execState_control i (latch r s)
    exact ⟨hh, hp, by simpa using hc.1, by simpa using hc.2.2.1, by simpa using hc.2.2.2.1,
      by simpa using hc.2.2.2.2⟩

/-- No step changes the program (spec/20_memory.md R66). -/
theorem stepCall_program {s t : State} {o : StepOutcome} (h : stepCall s = .next (o, t)) : t.program = s.program := by
  rcases stepCall_cases h with ⟨_, _, rfl⟩ | ⟨_, _, _, rfl⟩ | ⟨_, _, _, r, i, _, _, rfl⟩
  · rfl
  · rfl
  · simpa using (execState_control i (latch r s)).1

/-- A run of continued steps begins with one. -/
theorem continues_succ {n : Nat} {s t : State} (h : continues (n + 1) s = some t) :
    ∃ u, stepCall s = .next (.continued, u) ∧ continues n u = some t := by
  simp only [continues] at h
  split at h
  · next u hu => exact ⟨u, hu, h⟩
  · cases h

/-- The driver passes over continued steps, counting each. -/
theorem runLoop_continues (n : Nat) : ∀ (b k : Nat) (s t : State), continues n s = some t →
    runLoop (n + b) k s = runLoop b (k + n) t := by
  induction n with
  | zero => intro b k s t h; cases h; simp
  | succ n ih =>
    intro b k s t h
    obtain ⟨u, hu, h⟩ := continues_succ h
    rw [show n + 1 + b = n + b + 1 by omega, runLoop]
    simp only [(continued_control hu).1, hu]
    rw [if_neg (by simp), ih b (k + 1) u t h]
    congr 1
    omega

/-- A load's answer, by what the decoder says of the text (spec/70_reset_and_hazards.md R232, R233). -/
theorem loadProgram_cases (text : Text) (s : State) :
    (∃ rs, decodeText text = .program rs ∧ loadProgram text s = .next (.loaded rs.length, install rs s)) ∨
    (∃ line token message, decodeText text = .rejected (.unknownOpcode line token) ∧
      loadProgram text s = .next (.rejected line token message, State.reset)) ∨
    (∃ line, decodeText text = .rejected (.ambiguousLiteral line) ∧
      loadProgram text s = .refused (.ambiguousLiteral line)) := by
  unfold loadProgram
  cases decodeText text with
  | program rs => exact .inl ⟨rs, rfl, rfl⟩
  | rejected w =>
    cases w with
    | unknownOpcode line token => exact .inr (.inl ⟨line, token, _, rfl, rfl⟩)
    | ambiguousLiteral line => exact .inr (.inr ⟨line, rfl, rfl⟩)

end Sys2Proof.Machine
end

