-- ==== Sys2Proof/Laws/PerInstr.lean ====
section
/-! SUPPORT. Statements about every instruction as syntax, one lemma per constructor: an instruction is its mnemonic and its
two descriptors, its diagnostic code names its mnemonic, and its source line decodes to it. -/

namespace Sys2Proof.Laws

open Sys2Proof

/-- An instruction is rebuilt from its mnemonic and descriptors; the mnemonic is the one its spelling and its diagnostic
code name; its two tokens classify as its two descriptors (spec/00_scope.md R5, spec/30_encoding.md R74, R80, R92). -/
def Shape.Statement (i : Instr) : Prop :=
  Instr.build i.mnemonic i.operand1 i.operand2 = i ∧
  mnemonicOf? i.mnemonic.name = some i.mnemonic ∧
  mnemonicOfCode? i.mnemonic.code.toNat = some i.mnemonic ∧
  classify i.operand1.token = i.operand1 ∧ classify i.operand2.token = i.operand2

theorem Shape.mov (a b : Operand) : Shape.Statement (.mov a b) :=
  ⟨rfl, mnemonicOf_name _, rfl, classify_token _, classify_token _⟩

theorem Shape.add (a b : Operand) : Shape.Statement (.add a b) :=
  ⟨rfl, mnemonicOf_name _, rfl, classify_token _, classify_token _⟩

theorem Shape.sub (a b : Operand) : Shape.Statement (.sub a b) :=
  ⟨rfl, mnemonicOf_name _, rfl, classify_token _, classify_token _⟩

theorem Shape.mul (a b : Operand) : Shape.Statement (.mul a b) :=
  ⟨rfl, mnemonicOf_name _, rfl, classify_token _, classify_token _⟩

theorem Shape.div (a b : Operand) : Shape.Statement (.div a b) :=
  ⟨rfl, mnemonicOf_name _, rfl, classify_token _, classify_token _⟩

theorem Shape.jmp (a b : Operand) : Shape.Statement (.jmp a b) :=
  ⟨rfl, mnemonicOf_name _, rfl, classify_token _, classify_token _⟩

theorem Shape.jz (a b : Operand) : Shape.Statement (.jz a b) :=
  ⟨rfl, mnemonicOf_name _, rfl, classify_token _, classify_token _⟩

theorem Shape.jnz (a b : Operand) : Shape.Statement (.jnz a b) :=
  ⟨rfl, mnemonicOf_name _, rfl, classify_token _, classify_token _⟩

theorem Shape.js (a b : Operand) : Shape.Statement (.js a b) :=
  ⟨rfl, mnemonicOf_name _, rfl, classify_token _, classify_token _⟩

theorem Shape.jns (a b : Operand) : Shape.Statement (.jns a b) :=
  ⟨rfl, mnemonicOf_name _, rfl, classify_token _, classify_token _⟩

theorem Shape.and (a b : Operand) : Shape.Statement (.and a b) :=
  ⟨rfl, mnemonicOf_name _, rfl, classify_token _, classify_token _⟩

theorem Shape.or (a b : Operand) : Shape.Statement (.or a b) :=
  ⟨rfl, mnemonicOf_name _, rfl, classify_token _, classify_token _⟩

theorem Shape.xor (a b : Operand) : Shape.Statement (.xor a b) :=
  ⟨rfl, mnemonicOf_name _, rfl, classify_token _, classify_token _⟩

theorem Shape.not (a b : Operand) : Shape.Statement (.not a b) :=
  ⟨rfl, mnemonicOf_name _, rfl, classify_token _, classify_token _⟩

theorem Shape.cmp (a b : Operand) : Shape.Statement (.cmp a b) :=
  ⟨rfl, mnemonicOf_name _, rfl, classify_token _, classify_token _⟩

theorem Shape.inc (a b : Operand) : Shape.Statement (.inc a b) :=
  ⟨rfl, mnemonicOf_name _, rfl, classify_token _, classify_token _⟩

end Sys2Proof.Laws
end

