-- ==== Sys2Proof/Laws/Values.lean ====
section
/-! SUPPORT. The laws of values: division against the library's truncating division, and the bits of an integer. -/

namespace Sys2Proof

/-- The spec's truncating division is the library's (spec/93_implementation_defined.md GK2). -/
theorem tdiv_eq (a b : Int) : tdiv a b = Int.tdiv a b := by
  have habs : ∀ n : Nat, |(n : Int) + 1| = n + 1 := fun n => abs_of_nonneg (by positivity)
  cases a with
  | ofNat m =>
    cases b with
    | ofNat n => cases m <;> cases n <;> simp [tdiv, Int.tdiv, habs]
    | negSucc n => cases m <;> simp [tdiv, Int.tdiv, habs]
  | negSucc m =>
    cases b with
    | ofNat n => cases n <;> simp [tdiv, Int.tdiv, habs]
    | negSucc n => simp [tdiv, Int.tdiv]

/-- The bits of a natural number. -/
theorem intBit_ofNat (m i : Nat) : intBit (Int.ofNat m) i = m.testBit i := by
  simp only [intBit, Nat.testBit_eq_decide_div_mod_eq]
  have : (Int.ofNat m / 2 ^ i) % 2 = ((m / 2 ^ i % 2 : Nat) : Int) := by push_cast; rfl
  rw [this]
  rcases Nat.mod_two_eq_zero_or_one (m / 2 ^ i) with h | h <;> simp [h]

/-- The bits of a negative integer `-(m+1)` are the complemented bits of `m`. -/
theorem intBit_negSucc (m i : Nat) : intBit (Int.negSucc m) i = !m.testBit i := by
  simp only [intBit, Nat.testBit_eq_decide_div_mod_eq]
  have h1 : Int.negSucc m / 2 ^ i = -((m / 2 ^ i : Nat) : Int) - 1 := by
    rw [Int.negSucc_ediv _ (by positivity)]
    have e : (2 ^ i : Int) = ((2 ^ i : Nat) : Int) := by push_cast; rfl
    rw [e]
    change -(((m : Int) / (2 ^ i : Nat)) + 1) = _
    push_cast
    ring
  rw [h1]
  generalize m / 2 ^ i = k
  rcases Nat.mod_two_eq_zero_or_one k with h | h
  · have : (-(k : Int) - 1) % 2 = 1 := by omega
    rw [this]
    simp [h]
  · have : (-(k : Int) - 1) % 2 = 0 := by omega
    rw [this]
    simp [h]

end Sys2Proof
end

