-- ==== Sys2Proof/Tests/Slice0.lean ====
section
/-! SUPPORT. The model's own tests: the well-formedness checks on ill-formed terms, every mnemonic's line and table word, one
or two single steps per instruction from spec/95_test_vectors.md, and a witness for the hypotheses of each statement. -/

namespace Sys2Proof.Tests

open Sys2Proof Sys2Proof.Machine

/-! ## Helpers -/

/-- A record that fills the program below the tested index. -/
def filler : InstrRecord := ⟨.jmp, [], [], ['j', 'm', 'p'], 1⟩

/-- A start state: registers, memory, flags and `pc`, the last index of a program of fillers. -/
def start (x : Regs) (m : Memory) (z n : Bool) (pc : Nat) : State :=
  { State.reset with regs := x, mem := m, zf := z, sf := n, pc := pc, program := List.replicate (pc + 1) filler, running := true }

/-- The state after one step of a source line at the state's `pc`. -/
def after (line : String) (s : State) : Option State :=
  match decodeLine 1 line.toList with
  | .record r =>
    match step (placeRecord r s) with
    | .next t => some t
    | .fault _ => none
    | .refused _ => none
  | .dropped => none
  | .rejected _ => none

/-- The registers with `eax` and nothing else. -/
def eaxIs (v : Int) : Regs := ⟨v, 0, 0, 0⟩

/-- The opcode and the two descriptors a line decodes to. -/
def lineInstr (line : String) : Option Instr :=
  match decodeLine 1 line.toList with
  | .record r =>
    match decodeRecord r with
    | .instr i => some i
    | .rejected _ => none
  | .dropped => none
  | .rejected _ => none

/-! ## Well-formedness: each check refuses an ill-formed term -/

theorem test_value_out_of_width_refused : valueWfAt (some 8) 128 = false ∧ valueWfAt (some 8) (-128) = true := by decide

theorem test_value_unbounded_accepted : valueWfAt Config.xlen (2 ^ 100) = true := by decide

theorem test_direct_out_of_width_refused : Operand.wfAt (some 8) (.dir 200) = false := by decide

theorem test_immediate_out_of_width_refused : Operand.wfAt (some 8) (.imm (-129)) = false := by decide

theorem test_first_operand_checked : Instr.wfAt (some 8) (.mov (.imm 300) (.reg .eax)) = false := by decide

theorem test_second_operand_checked : Instr.wfAt (some 8) (.jmp (.reg .eax) (.dir 300)) = false := by decide

theorem test_token_with_space_refused : tokenWf "e x".toList = false := by decide

theorem test_token_with_underscore_refused : tokenWf "1_0".toList = false := by decide

theorem test_token_non_ascii_refused : tokenWf [Char.ofNat 128] = false ∧ tokenWf [Char.ofNat 127] = true := by decide

theorem test_line_with_line_feed_refused : lineWf "mov\neax".toList = false := by decide

theorem test_record_operand1_checked : InstrRecord.wf ⟨.mov, "a b".toList, [], [], 1⟩ = false := by decide

theorem test_record_operand2_checked : InstrRecord.wf ⟨.mov, [], "a_".toList, [], 1⟩ = false := by decide

theorem test_record_source_checked : InstrRecord.wf ⟨.mov, [], [], ['\n'], 1⟩ = false := by decide

theorem test_record_line_number_checked :
    InstrRecord.wf ⟨.mov, [], [], [], 0⟩ = false ∧ InstrRecord.wf ⟨.mov, [], [], [], 1⟩ = true := by decide

theorem test_memory_unsorted_refused : ¬ Memory.wf [(2, 0), (1, 0)] ∧ ¬ Memory.wf [(1, 0), (1, 0)] := by decide

theorem test_memory_out_of_range_refused : ¬ Memory.wf [(4096, 1)] ∧ Memory.wf [(0, 0), (4095, 1)] := by decide

/-! ## Decoding: lines written out from spec/30_encoding.md R72 to R86 and 95_test_vectors.md, and the table's words -/

theorem test_decode_mov : lineInstr "  MOV eax 5  " = some (.mov (.reg .eax) (.imm 5)) := by decide

theorem test_decode_mov_tabs : lineInstr "mov\tebx\t[3]" = some (.mov (.reg .ebx) (.dir 3)) := by decide

theorem test_decode_add : lineInstr "add eax 1 2 3" = some (.add (.reg .eax) (.imm 1)) := by decide

theorem test_decode_sub : lineInstr "sub [ecx] +7" = some (.sub (.ind .ecx) (.imm 7)) := by decide

theorem test_decode_mul : lineInstr "mul edx [+7]" = some (.mul (.reg .edx) (.dir 7)) := by decide

theorem test_decode_div : lineInstr "div [-3] 0x10" = some (.div (.dir (-3)) (.imm 0)) := by decide

theorem test_decode_jmp : lineInstr "jmp" = some (.jmp (.imm 0) (.imm 0)) := by decide

theorem test_decode_jz : lineInstr "jz 007" = some (.jz (.imm 7) (.imm 0)) := by decide

theorem test_decode_jnz : lineInstr "Jnz 1" = some (.jnz (.imm 1) (.imm 0)) := by decide

theorem test_decode_js : lineInstr "js [eax]" = some (.js (.ind .eax) (.imm 0)) := by decide

theorem test_decode_jns : lineInstr "jns -0" = some (.jns (.imm 0) (.imm 0)) := by decide

theorem test_decode_and : lineInstr "and eax -12" = some (.and (.reg .eax) (.imm (-12))) := by decide

theorem test_decode_or : lineInstr "or [5000] edx" = some (.or (.dir 5000) (.reg .edx)) := by decide

theorem test_decode_xor : lineInstr "xor EAX [EBX]" = some (.xor (.imm 0) (.imm 0)) := by decide

theorem test_decode_not : lineInstr "not [[0]] 5a" = some (.not (.imm 0) (.imm 0)) := by decide

theorem test_decode_cmp : lineInstr "cmp eax, -" = some (.cmp (.imm 0) (.imm 0)) := by decide

theorem test_decode_inc : lineInstr "inc eax ; note" = some (.inc (.reg .eax) (.imm 0)) := by decide

theorem test_decode_comment : decodeLine 1 "   ;x".toList = .dropped ∧ decodeLine 1 "   ".toList = .dropped := by decide

theorem test_decode_unknown : decodeLine 2 "movx eax 1_0".toList = .rejected (.unknownOpcode 2 "movx".toList) := by decide

theorem test_decode_refused :
    decodeLine 1 "mov eax 1_0".toList = .rejected (.ambiguousLiteral 1) ∧
    decodeLine 1 "jmp 0 [1_0]".toList = .rejected (.ambiguousLiteral 1) ∧ lineInstr "jmp 0 0 1_0" = lineInstr "jmp 0" := by decide

/-- The words of spec/opcode_table.json: the code of R92 in bits 39 to 36. -/
theorem test_table_words :
    [0, 1, 2, 3, 4, 5, 6, 7, 8, 9, 10, 11, 12, 13, 14, 15].map (fun c => decodeTableWord 40 (c * 0x1000000000)) =
      [Mnemonic.mov, .add, .sub, .mul, .div, .jmp, .jz, .jnz, .js, .jns, .and, .or, .xor, .not, .cmp, .inc].map
        (fun m => some (Instr.build m (.imm 0) (.imm 0))) := by decide

theorem test_table_word_runs_first :
    step (State.withFetchWord State.reset 40 0xF000000000) =
      .next { State.reset with program := [⟨.inc, [], [], "inc".toList, 1⟩], ir := some ⟨.inc, [], [], "inc".toList, 1⟩,
                               pc := 1, executed := 1, running := true } := by rfl

theorem test_display_string :
    displayString (.cmp (.reg .eax) (.reg .ebx)) = "1110".toList ++ List.replicate 36 '0' ∧
    (diagWord (.jnz (.imm 1) (.imm 0))).toNat = 0x7000000000 := by decide

/-! ## One step per instruction: the vectors of spec/95_test_vectors.md Part 2 -/

theorem test_mov_indirect_self :
    (after "mov eax [eax]" (start (eaxIs 1) [(1, 8)] false false 0)).map (fun t => (t.regs, t.pc, t.executed)) =
      some (eaxIs 8, 1, 1) := by decide

theorem test_mov_comma_writes_nothing :
    (after "mov eax, 5" (start (eaxIs 3) [] true false 0)).map (fun t => (t.regs, t.mem, t.zf, t.pc)) =
      some (eaxIs 3, [], true, 1) := by decide

theorem test_add_negative :
    (after "add eax -5" (start (eaxIs 2) [] false false 0)).map (fun t => (t.regs.eax, t.zf, t.sf)) =
      some (-3, false, true) := by decide

theorem test_add_dropped_write :
    (after "add [4096] 5" (start (eaxIs 0) [] true true 0)).map (fun t => (t.mem, t.zf, t.sf)) =
      some ([], false, false) := by decide

theorem test_sub_below_zero :
    (after "sub ecx 1" (start ⟨9, 9, 0, 9⟩ [] false false 0)).map (fun t => (t.regs, t.zf, t.sf)) =
      some (⟨9, 9, -1, 9⟩, false, true) := by decide

theorem test_sub_immediates :
    (after "sub 1 2" (start (eaxIs 7) [] false false 0)).map (fun t => (t.regs, t.zf, t.sf)) =
      some (eaxIs 7, false, true) := by decide

theorem test_mul_negative :
    (after "mul eax 4" (start (eaxIs (-3)) [] false true 0)).map (fun t => (t.regs.eax, t.zf, t.sf)) =
      some (-12, false, true) := by decide

theorem test_mul_wide :
    (after "mul eax 1099511627776" (start (eaxIs (2 ^ 40)) [] false true 0)).map (fun t => t.regs.eax) =
      some (2 ^ 80) := by decide

theorem test_div_truncates :
    (after "div eax 2" (start (eaxIs (-7)) [] false false 0)).map (fun t => (t.regs.eax, t.zf, t.sf)) =
      some (-3, false, false) := by decide

theorem test_div_zero :
    (after "div eax [9]" (start (eaxIs 7) [] true false 0)).map (fun t => (t.regs.eax, t.zf, t.sf, t.pc, t.running)) =
      some (7, true, false, 1, true) := by decide

theorem test_inc_to_zero_keeps_flags :
    (after "inc edx" (start ⟨0, 0, 0, -1⟩ [] false false 0)).map (fun t => (t.regs, t.zf)) =
      some (⟨0, 0, 0, 0⟩, false) := by decide

theorem test_inc_memory :
    (after "inc [3] ebx" (start (eaxIs 0) [(3, 9)] false false 0)).map (fun t => t.mem) = some [(3, 10)] := by decide

theorem test_cmp_less :
    (after "cmp eax 5" (start (eaxIs 3) [] false false 0)).map (fun t => (t.regs, t.zf, t.sf)) =
      some (eaxIs 3, false, true) := by decide

theorem test_cmp_missing_operand :
    (after "cmp eax" (start (eaxIs 0) [] false false 0)).map (fun t => (t.zf, t.sf)) = some (true, false) := by decide

theorem test_and_negative :
    (after "and eax -3" (start (eaxIs (-2)) [] true false 0)).map (fun t => (t.regs.eax, t.zf, t.sf)) =
      some (-4, true, false) := by decide

theorem test_and_mixed_signs :
    (after "and eax 7" (start (eaxIs (-8)) [] false false 0)).map (fun t => (t.regs.eax, t.zf)) = some (0, false) := by decide

theorem test_or_mixed_signs :
    (after "or eax 7" (start (eaxIs (-8)) [] false false 0)).map (fun t => (t.regs.eax, t.sf)) = some (-1, false) := by decide

theorem test_or_positive : (after "or eax 10" (start (eaxIs 12) [] false false 0)).map (fun t => t.regs.eax) = some 14 := by decide

theorem test_xor_negative : (after "xor eax -3" (start (eaxIs (-2)) [] false false 0)).map (fun t => t.regs.eax) = some 3 := by decide

theorem test_xor_self_keeps_flags :
    (after "xor eax eax" (start (eaxIs 9) [] false false 0)).map (fun t => (t.regs.eax, t.zf)) = some (0, false) := by decide

theorem test_not_positive : (after "not eax" (start (eaxIs 5) [] false false 0)).map (fun t => (t.regs.eax, t.sf)) = some (-6, false) := by
  decide

theorem test_not_immediate : (after "not 5" (start (eaxIs 5) [] false false 0)).map (fun t => (t.regs, t.mem)) = some (eaxIs 5, []) := by
  decide

theorem test_jmp_memory : (after "jmp [0]" (start (eaxIs 0) [(0, 3)] false false 2)).map (fun t => t.pc) = some 3 := by decide

theorem test_jmp_negative :
    (after "jmp -1" (start (eaxIs 0) [] false false 2)).map (fun t => (t.pc, t.executed, t.running)) = some (-1, 1, true) := by decide

theorem test_jz_taken : (after "jz 0" (start (eaxIs 0) [] true false 3)).map (fun t => t.pc) = some 0 := by decide

theorem test_jz_not_taken : (after "jz 0" (start (eaxIs 0) [] false true 3)).map (fun t => t.pc) = some 4 := by decide

theorem test_jnz_taken : (after "jnz 1" (start (eaxIs 0) [] false false 3)).map (fun t => t.pc) = some 1 := by decide

theorem test_jnz_not_taken : (after "jnz 1" (start (eaxIs 0) [] true false 3)).map (fun t => t.pc) = some 4 := by decide

theorem test_js_taken : (after "js 4" (start (eaxIs 0) [] false true 1)).map (fun t => t.pc) = some 4 := by decide

theorem test_js_not_taken : (after "js 4" (start (eaxIs 0) [] true false 1)).map (fun t => t.pc) = some 2 := by decide

theorem test_jns_taken : (after "jns 4" (start (eaxIs 0) [] true false 1)).map (fun t => t.pc) = some 4 := by decide

theorem test_jns_not_taken : (after "jns 4" (start (eaxIs 0) [] false true 1)).map (fun t => t.pc) = some 2 := by decide

/-! ## Memory, values, cycle, host -/

theorem test_write_zero_keeps_key :
    (writeOp (.dir 0) 0 (start ⟨5, -1, 0, 0⟩ [(5, 9)] false false 0)).mem = [(0, 0), (5, 9)] := by decide

/-- 95_test_vectors.md, `div` with XLEN = 32: the quotient wraps. -/
theorem test_wrap_32 : wrapAt (some 32) (tdiv (-2147483648) (-1)) = -2147483648 := by decide

theorem test_reset_step_halts : step State.reset = .next State.reset := by rfl

/-- spec/00_scope.md glossary "Idle", spec/10_state.md R33: Halted only after a load, whatever the host has poked. -/
theorem test_poked_reset_is_idle :
    executorState (setMemory 0 6 State.reset) = .idle ∧
    executorState { State.reset with program := [filler], pc := 1, running := true } = .halted ∧
    executorState { State.reset with program := [filler], pc := 1 } = .halted := by decide

theorem test_run_one :
    runAuto 1 { State.reset with program := [filler], running := true } =
      .next (.limitExceeded 1, { State.reset with program := [filler], running := true, ir := some filler, executed := 1 }) := by
  rfl

theorem test_load_counts :
    call (.loadProgram "inc eax\n\n; c\njmp".toList) State.reset =
      .next (.load (.loaded 2), { State.reset with program :=
        [⟨.inc, "eax".toList, [], "inc eax".toList, 1⟩, ⟨.jmp, [], [], "jmp".toList, 4⟩], running := true }) := by rfl

theorem test_load_refused : loadProgram "mov eax 1_0".toList State.reset = .refused (.ambiguousLiteral 1) := by rfl

/-! ## Witnesses: for each statement with hypotheses, values that meet them together -/

theorem witness_DecodeOfEncodeIsIdentity :
    (Instr.mov (.dir (-1)) (.imm (2 ^ 70))).wf = true ∧ (Instr.not (.ind .edx) (.reg .eax)).wf = true := by decide

theorem witness_LoadInstallsEncodedProgram :
    ∀ i ∈ [Instr.mov (.reg .eax) (.imm (-1)), .jmp (.imm 0) (.imm 0)], i.wf = true := by decide

theorem witness_TokenShapesClassify :
    intLiteral? "-3".toList = some (-3) ∧ intLiteral? "+0".toList = some 0 ∧ classify "edx".toList = .reg .edx ∧
    classify "[eax]".toList = .ind .eax ∧ classify "[-3]".toList = .dir (-3) := by decide

theorem witness_OtherTokensAreImmediateZero :
    ((∀ r : Reg, "[5a]".toList ≠ r.name) ∧ (∀ r : Reg, "[5a]".toList ≠ '[' :: (r.name ++ [']'])) ∧
      (∀ u v, "[5a]".toList = '[' :: (u ++ [']']) → intLiteral? u ≠ some v) ∧
      (∀ v, intLiteral? "[5a]".toList ≠ some v)) ∧
    ((∃ c ∈ (InstrRecord.mk .mov "1_0".toList [] [] 1).operand1, c = '_' ∨ 128 ≤ c.toNat) ∧
      (∃ c ∈ (InstrRecord.mk .mov [] [Char.ofNat 128] [] 1).operand2, c = '_' ∨ 128 ≤ c.toNat)) := by
  refine ⟨⟨fun r => by cases r <;> decide, fun r => by cases r <;> decide, fun u v h => ?_, fun v => ?_⟩,
    ⟨'_', by decide, by decide⟩, ⟨Char.ofNat 128, by decide, by decide⟩⟩
  · have hu : u = ['5', 'a'] := by
      have h2 := (List.cons.inj h).2
      exact (List.append_inj_left' (s₁ := ['5', 'a']) (t₁ := [']']) h2 rfl).symm
    subst hu
    have hn : intLiteral? ['5', 'a'] = none := by decide
    simp [hn]
  · rw [show intLiteral? "[5a]".toList = none by decide]
    exact nofun

theorem witness_OpcodeTokensFoldCase :
    mnemonicOf? "MoV".toList = some .mov ∧ foldCase 'A' = 'a' ∧ foldCase 'Z' = 'z' ∧ foldCase '@' = '@' ∧
    foldCase '[' = '[' ∧ ('A' ≤ 'A' ∧ 'A' ≤ 'Z') ∧ ('A' ≤ 'Z' ∧ 'Z' ≤ 'Z') :=
  ⟨by decide, by decide, by decide, by decide, by decide, by simp, by simp⟩

theorem witness_OnlyBlankAndCommentLinesDrop :
    (∀ c ∈ [' ', '\t'], isSpace c = true) ∧ (∀ c ∈ ([] : Text), isSpace c = true) ∧ isSpace ';' = false ∧
    isSpace 'm' = false ∧ decodeLine 1 " \t;m".toList = .dropped ∧ decodeLine 1 " \tjmp".toList ≠ .dropped :=
  ⟨by simp [isSpace], by simp, by decide⟩

/-- Four separators, an upper-case opcode, a comment mark as a token and ignored later tokens. -/
theorem witness_KeptLineFields :
    mnemonicOf? ['M', 'O', 'V'] = some .mov ∧ (∀ c ∈ ['M', 'O', 'V'], isSpace c = false) ∧
    (∀ c ∈ ['e', 'a', 'x'], isSpace c = false ∧ isRefusedChar c = false) ∧
    (∀ c ∈ [';'], isSpace c = false ∧ isRefusedChar c = false) ∧ (∀ c ∈ [' ', ' '], isSpace c = true) ∧
    (∀ c ∈ ['\t'], isSpace c = true) ∧ (∀ c ∈ [' '], isSpace c = true) ∧
    (∀ c, [' ', '1', '_', '0'].head? = some c → isSpace c = true) ∧ ['\t'] ≠ [] ∧ ['e', 'a', 'x'] ≠ [] ∧
    [' '] ≠ [] ∧ [';'] ≠ [] := by
  refine ⟨by decide, ?_, ?_, ?_, ?_, ?_, ?_, ?_, ?_⟩ <;> simp [isSpace, isRefusedChar]

theorem witness_ProgramIndexCountsKeptLines :
    ∃ rs, decodeText "; c\n\ninc eax\njmp".toList = .program rs ∧
      rs[0]? = some ⟨.inc, "eax".toList, [], "inc eax".toList, 3⟩ ∧ rs[1]? = some ⟨.jmp, [], [], "jmp".toList, 4⟩ :=
  ⟨_, rfl, by decide, by decide⟩

/-- The lines of program P7 of 95_test_vectors.md, and a later line of refused tokens. -/
theorem witness_UnknownOpcodeFailsTheLoad :
    (∀ l ∈ ["; comment".toList, "mov eax 1".toList, []] ++ "foo ebx".toList :: ["mov 1_0".toList], '\n' ∉ l) ∧
    (∀ k l, ["; comment".toList, "mov eax 1".toList, []][k]? = some l → ∀ why, decodeLine (k + 1) l ≠ .rejected why) ∧
    isDropped "foo ebx".toList = false ∧ tokens (strip "foo ebx".toList) = ["foo".toList, "ebx".toList] ∧
    mnemonicOf? "foo".toList = none := by
  refine ⟨by decide, fun k l h why hd => ?_, by decide, by decide, by decide⟩
  rcases k with _ | _ | _ | k
  · cases h; revert hd; rw [show decodeLine (0 + 1) "; comment".toList = .dropped by decide]; exact LineResult.noConfusion
  · cases h
    revert hd
    rw [show decodeLine (0 + 1 + 1) "mov eax 1".toList =
      .record ⟨.mov, "eax".toList, "1".toList, "mov eax 1".toList, 2⟩ by decide]
    exact LineResult.noConfusion
  · cases h; revert hd; rw [show decodeLine (0 + 1 + 1 + 1) [] = .dropped by decide]; exact LineResult.noConfusion
  · cases h

theorem witness_DiagnosticWordLayout :
    (0 < 40 ∧ (displayString (.inc (.imm 0) (.imm 0)))[0]? = some '1') ∧
    (39 < 40 ∧ (displayString (.inc (.imm 0) (.imm 0)))[39]? = some '0') := by decide

theorem witness_WrapIsTwosComplement :
    (0 < 1 ∧ wrapAt (some 1) 1 = -1 ∧ wrapAt (some 1) 0 = 0) ∧ (0 < 8 ∧ wrapAt (some 8) 128 = -128) := by decide

theorem witness_DivisionTruncatesTowardZero :
    (2 : Int) ≠ 0 ∧ tdiv (-7) 2 = -3 ∧ (-1 : Int) ≠ 0 ∧ tdiv 7 (-1) = -7 ∧ (-5 : Int) ≠ 0 ∧ tdiv 42 (-5) = -8 := by decide

/-- A state with cells at both ends of memory. -/
def edges : State := { State.reset with mem := [(0, 7), (4095, -1)] }

theorem witness_MemoryRead :
    (Memory.wf edges.mem ∧ ((0 : Int).toNat, 7) ∈ edges.mem ∧ memRead edges 0 = 7) ∧
    (((4095 : Int).toNat, -1) ∈ edges.mem ∧ memRead edges 4095 = -1) ∧ (4094 : Int).toNat ∉ Memory.keys edges.mem ∧
    (¬ (0 ≤ (4096 : Int) ∧ (4096 : Int) < 4096) ∧ memRead edges 4096 = 0) ∧
    (¬ (0 ≤ (-1 : Int) ∧ (-1 : Int) < 4096) ∧ memRead edges (-1) = 0) := by decide

theorem witness_MemoryWrite :
    (memWrite edges 0 3).mem = [(0, 3), (4095, -1)] ∧ (memWrite edges 4095 0).mem = [(0, 7), (4095, 0)] ∧
    memWrite edges 4096 3 = edges ∧ memWrite edges (-1) 3 = edges ∧ (1 : Int) ≠ 0 ∧ (1 : Nat) ≠ (0 : Int).toNat := by decide

theorem witness_WritesKeepEveryKey : Memory.wf edges.mem ∧ Memory.wf (memWrite edges 1 0).mem := by decide

theorem witness_HostMemoryRoundTrip :
    (0 ≤ (0 : Int) ∧ (0 : Int) < 4096) ∧ (0 ≤ (4095 : Int) ∧ (4095 : Int) < 4096) ∧
    ¬ (0 ≤ (4096 : Int) ∧ (4096 : Int) < 4096) ∧ ¬ (0 ≤ (-1 : Int) ∧ (-1 : Int) < 4096) ∧
    memRead (setMemory 4095 8 edges) 4095 = 8 := by decide

theorem witness_DivResult :
    readOp (.dir 1) edges = 0 ∧ readOp (.dir 0) edges ≠ 0 ∧ readOp (.dir 4095) edges = -1 := by decide

theorem witness_OnlyAddSubCmpWriteFlags :
    (exec (.mul (.dir 0) (.imm 0)) edges = .next (writeOp (.dir 0) 0 edges) ∧
      (Instr.mul (.dir 0) (.imm 0)).mnemonic ∉ [Mnemonic.add, .sub, .cmp]) ∧
    (exec (.cmp (.imm 1) (.imm 1)) edges = .next { edges with zf := true } ∧
      (Instr.cmp (.imm 1) (.imm 1)).mnemonic ∈ [Mnemonic.add, .sub, .cmp]) := ⟨⟨rfl, by decide⟩, rfl, by decide⟩

theorem witness_OnlyTheDestinationChanges :
    (exec (.inc (.reg .ebx) (.imm 0)) edges = .next (writeReg edges .ebx 1) ∧
      readReg (writeReg edges .ebx 1) .ebx ≠ readReg edges .ebx) ∧
    (exec (.inc (.dir 4095) (.imm 0)) edges = .next (memWrite edges 4095 0) ∧
      memRead (memWrite edges 4095 0) 4095 ≠ memRead edges 4095) := ⟨⟨rfl, by decide⟩, rfl, by decide⟩

/-- Two states with one memory for a program: a zero key, another counter and another instruction register. -/
theorem witness_ProgramsCannotSeeHiddenState :
    Indistinguishable State.reset { State.reset with mem := [(5, 0)], executed := 3, ir := some filler } ∧
    exec (.jmp (.dir 5) (.imm 0)) State.reset = .next { State.reset with pc := -1 } ∧
    exec (.jmp (.dir 5) (.imm 0)) { State.reset with mem := [(5, 0)], executed := 3, ir := some filler } =
      .next { State.reset with mem := [(5, 0)], executed := 3, ir := some filler, pc := -1 } := by
  refine ⟨⟨rfl, rfl, rfl, rfl, fun a => ?_⟩, rfl, rfl⟩
  simp only [memRead, Memory.lookup, State.reset]
  by_cases h : 5 = a.toNat <;> simp [h]

theorem witness_JumpsAfterCompare :
    exec (.cmp (.imm 3) (.dir 0)) edges = .next { edges with sf := true } ∧
    exec (.cmp (.dir 0) (.imm 7)) edges = .next { edges with zf := true } ∧
    exec (.cmp (.dir 0) (.imm 6)) edges = .next edges := ⟨rfl, rfl, rfl⟩

theorem witness_SourceIsDestination :
    (exec (.add (.reg .eax) (.reg .eax)) edges = .next { edges with zf := true }) ∧
    (exec (.sub (.dir 0) (.dir 0)) edges = .next { memWrite edges 0 0 with zf := true }) ∧
    (exec (.mov (.reg .eax) (.ind .eax)) edges = .next (writeReg edges .eax 7)) ∧
    (exec (.add (.ind .eax) (.reg .eax)) edges = .next (memWrite edges 0 7) ∧ 0 ≤ readReg edges .eax ∧
      readReg edges .eax < 4096) ∧
    (exec (.add (.ind .ebx) (.reg .ebx)) (writeReg edges .ebx 4095) =
        .next (memWrite (writeReg edges .ebx 4095) 4095 4094) ∧
      0 ≤ readReg (writeReg edges .ebx 4095) .ebx ∧ readReg (writeReg edges .ebx 4095) .ebx < 4096) :=
  ⟨rfl, rfl, rfl, ⟨rfl, by decide, by decide⟩, rfl, by decide, by decide⟩

/-- The record of `inc eax`. -/
def incEax : InstrRecord := ⟨.inc, "eax".toList, [], "inc eax".toList, 1⟩

/-- The record of `jmp -1`. -/
def jmpBack : InstrRecord := ⟨.jmp, "-1".toList, [], "jmp -1".toList, 2⟩

/-- `inc eax`, `jmp -1`, loaded. -/
def loaded : State := { State.reset with program := [incEax, jmpBack], running := true }

/-- After the first step of `loaded`. -/
def stepped : State := { loaded with regs := eaxIs 1, pc := 1, ir := some incEax, executed := 1 }

/-- After its second step: a taken jump to -1. -/
def jumped : State := { stepped with pc := -1, ir := some jmpBack, executed := 2 }

/-- After its third step, which fails. -/
def failed : State := { jumped with running := false, lastError := some .invalidPc }

theorem witness_HaltedStepClearsRunning :
    ({ loaded with running := false, pc := -1 } : State).running = false ∧
    ((({ loaded with pc := 2 } : State).program.length : Int) ≤ ({ loaded with pc := 2 } : State).pc) := by decide

theorem witness_NegativePcFails : jumped.running = true ∧ jumped.pc < 0 := by decide

theorem witness_StepRunsDecodedInstruction :
    stepped.running = true ∧ 0 ≤ stepped.pc ∧ stepped.program[stepped.pc.toNat]? = some jmpBack ∧
    decodeRecord jmpBack = .instr (.jmp (.imm (-1)) (.imm 0)) ∧
    exec (.jmp (.imm (-1)) (.imm 0)) { stepped with ir := some jmpBack } =
      .next { stepped with ir := some jmpBack, pc := -2 } :=
  ⟨rfl, by decide, rfl, rfl, rfl⟩

theorem witness_StepAdvances :
    (loaded.running = true ∧ 0 ≤ loaded.pc ∧ loaded.program[loaded.pc.toNat]? = some incEax ∧
      decodeRecord incEax = .instr (.inc (.reg .eax) (.imm 0))) ∧
    jumpTaken (.inc (.reg .eax) (.imm 0)) loaded = false ∧ jumpTaken (.jmp (.imm (-1)) (.imm 0)) stepped = true := by
  decide

theorem witness_StepIsTotal :
    loaded.program ≠ [] ∧ ∀ r ∈ loaded.program, ∃ i, decodeRecord r = .instr i := by
  refine ⟨by decide, fun r hr => ?_⟩
  rcases List.mem_pair.1 hr with rfl | rfl
  · exact ⟨.inc (.reg .eax) (.imm 0), rfl⟩
  · exact ⟨.jmp (.imm (-1)) (.imm 0), rfl⟩

theorem witness_StoppedMachineStays :
    (stepCall jumped = .next (.failed .invalidPc, failed) ∧ StepOutcome.failed .invalidPc ≠ .continued) ∧
    (stepCall { loaded with pc := 2 } = .next (.halted, { loaded with pc := 2, running := false }) ∧
      StepOutcome.halted ≠ .continued) := ⟨⟨rfl, by decide⟩, rfl, by decide⟩

theorem witness_NegativePcOnlyByJump :
    0 ≤ stepped.pc ∧ stepCall stepped = .next (.continued, jumped) ∧ jumped.pc < 0 := ⟨by decide, rfl, by decide⟩

theorem loaded_inv : Inv loaded where
  memory := by decide
  flags := by decide
  records := by decide
  latched := nofun
  counted := by decide
  entry := by decide
  failure := by decide
  negative := fun h => absurd h (by decide)

theorem jumped_inv : Inv jumped where
  memory := by decide
  flags := by decide
  records := by decide
  latched := fun r h => by cases h; decide
  counted := by decide
  entry := by decide
  failure := by decide
  negative := fun _ => ⟨jmpBack, rfl, rfl⟩

theorem failed_inv : Inv failed where
  memory := by decide
  flags := by decide
  records := by decide
  latched := fun r h => by cases h; decide
  counted := by decide
  entry := by decide
  failure := by decide
  negative := fun _ => ⟨jmpBack, rfl, rfl⟩

/-- `stepped` past the end of its program. -/
def ended : State := { stepped with pc := 2 }

theorem ended_inv : Inv ended where
  memory := by decide
  flags := by decide
  records := by decide
  latched := fun r h => by cases h; decide
  counted := by decide
  entry := by decide
  failure := by decide
  negative := fun h => absurd h (by decide)

/-- A reset machine into whose memory the host has poked. -/
def poked : State := { State.reset with mem := [(0, 6)] }

theorem poked_inv : Inv poked where
  memory := by decide
  flags := by decide
  records := nofun
  latched := nofun
  counted := by decide
  entry := by decide
  failure := by decide
  negative := fun h => absurd h (by decide)

/-- A state of each executor state with the invariant and a step of it, then a poke, a reset and the three kinds of load. -/
theorem witness_ExecutorStateTransitions :
    (Inv poked ∧ executorState poked = .idle ∧ stepCall poked = .next (.halted, poked) ∧ executorState poked ≠ .running) ∧
    (Inv loaded ∧ executorState loaded = .running ∧ stepCall loaded = .next (.continued, stepped)) ∧
    (Inv jumped ∧ executorState jumped = .running ∧ stepCall jumped = .next (.failed .invalidPc, failed)) ∧
    (Inv failed ∧ executorState failed = .failed ∧ stepCall failed = .next (.halted, failed)) ∧
    (Inv ended ∧ executorState ended = .halted ∧ stepCall ended = .next (.halted, { ended with running := false })) ∧
    call (.setMemory 0 6) State.reset = .next (.nothing, poked) ∧ call .reset failed = .next (.nothing, State.reset) ∧
    call (.loadProgram "inc eax\njmp -1".toList) failed = .next (.load (.loaded 2), loaded) ∧
    call (.loadProgram []) failed = .next (.load (.loaded 0), { State.reset with running := true }) ∧
    (∃ message, call (.loadProgram "foo".toList) failed = .next (.load (.rejected 1 "foo".toList message), State.reset)) :=
  ⟨⟨poked_inv, by decide, rfl, by decide⟩, ⟨loaded_inv, by decide, rfl⟩, ⟨jumped_inv, by decide, rfl⟩,
    ⟨failed_inv, by decide, rfl⟩, ⟨ended_inv, by decide, rfl⟩, rfl, rfl, rfl, rfl, _, rfl⟩

theorem witness_OnlyLoadAndResetChangeProgram :
    (call .reset loaded = .next (.nothing, State.reset) ∧ State.reset.program ≠ loaded.program) ∧
    (call (.loadProgram []) loaded = .next (.load (.loaded 0), { State.reset with running := true }) ∧
      ({ State.reset with running := true } : State).program ≠ loaded.program) := ⟨⟨rfl, by decide⟩, rfl, by decide⟩

theorem witness_StepKeepsInvariant : Inv loaded ∧ step loaded = .next stepped ∧ Inv jumped ∧ step jumped = .next failed :=
  ⟨loaded_inv, rfl, jumped_inv, rfl⟩

theorem witness_ReachableStatesHaveInvariant : Reachable loaded ∧ Reachable stepped := by
  have h : Reachable loaded :=
    .call (c := .loadProgram "inc eax\njmp -1".toList) (r := .load (.loaded 2)) .reset rfl
  exact ⟨h, .call (c := .step) (r := .continued) h rfl⟩

theorem witness_LoadReplacesTheMachine :
    decodeText "inc eax\njmp -1".toList = .program [incEax, jmpBack] ∧
    decodeText "jmp\nfoo ebx".toList = .rejected (.unknownOpcode 2 "foo".toList) ∧
    decodeText "mov eax 1_0".toList = .rejected (.ambiguousLiteral 1) := by decide

theorem witness_RunAutoIsRepeatedStep :
    (continues 2 loaded = some jumped ∧ (2 : Int) < 3 ∧ jumped.running = true ∧ jumped.pc < 0) ∧
    (continues 1 loaded = some stepped ∧ haltedCondition stepped = false) ∧
    (continues 0 failed = some failed ∧ ((0 : Nat) : Int) ≤ 0 ∧ haltedCondition failed = true) :=
  ⟨⟨rfl, by decide, rfl, by decide⟩, ⟨rfl, by decide⟩, rfl, by decide, by decide⟩

theorem witness_RunAutoAnswers :
    runAuto 1 loaded = .next (.limitExceeded 1, stepped) ∧ runAuto (-3) loaded = .next (.limitExceeded 0, loaded) ∧
    runAuto 10 loaded = .next (.completed 2, failed) ∧
    runAuto 0 { loaded with pc := 2 } = .next (.completed 0, { loaded with pc := 2 }) := ⟨rfl, rfl, rfl, rfl⟩

end Sys2Proof.Tests
end

section
/-! PROOFS. The obligations of spec/20_memory.md: `MemRead`, `MemWrite` and the host's round trip. The equations of
`memRead` and `memWrite` in and out of the acceptance window come first; each obligation is assembled from them and from
the read-after-write laws of Laws/Memory.lean. -/

namespace Sys2Proof.Machine

open Sys2Proof

/-! ## Reads and writes, inside and outside the window -/

/-- In range a read is the lookup, with 0 for no key (spec/20_memory.md R53). -/
theorem memRead_of_inRange (s : State) {a : Int} (h : 0 ≤ a ∧ a < 4096) :
    memRead s a = (Memory.lookup s.mem a.toNat).getD 0 := if_pos ((inRange_iff a).2 h)

/-- Out of range a read is 0 (spec/20_memory.md R53). -/
theorem memRead_of_not_inRange (s : State) {a : Int} (h : ¬ (0 ≤ a ∧ a < 4096)) : memRead s a = 0 :=
  if_neg (mt (inRange_iff a).1 h)

/-- In canonical form a read gives the value of the listed cell. -/
theorem memRead_of_mem {s : State} {a v : Int} (h : 0 ≤ a ∧ a < 4096) (hwf : Memory.wf s.mem)
    (hm : (a.toNat, v) ∈ s.mem) : memRead s a = v := by
  rw [memRead_of_inRange s h, lookup_of_mem hwf hm, Option.getD_some]

/-- A cell without a key reads 0. -/
theorem memRead_of_not_mem_keys {s : State} {a : Int} (h : a.toNat ∉ Memory.keys s.mem) : memRead s a = 0 := by
  by_cases ha : 0 ≤ a ∧ a < 4096
  · rw [memRead_of_inRange s ha, (lookup_eq_none_iff s.mem a.toNat).2 h, Option.getD_none]
  · exact memRead_of_not_inRange s ha

/-- Out of range a write is dropped (spec/20_memory.md R54). -/
theorem memWrite_of_not_inRange (s : State) {a : Int} (v : Int) (h : ¬ (0 ≤ a ∧ a < 4096)) : memWrite s a v = s :=
  if_neg (mt (inRange_iff a).1 h)

/-- The frame of a write: no field but memory changes, at any address. -/
theorem memWrite_eq_with_mem (s : State) (a v : Int) :
    memWrite s a v = { s with mem := (memWrite s a v).mem } := by
  unfold memWrite
  split <;> rfl

/-- A write in range is what its own address reads. -/
theorem memRead_memWrite_same (s : State) {a : Int} (v : Int) (h : 0 ≤ a ∧ a < 4096) :
    memRead (memWrite s a v) a = wrap v := by
  rw [memRead_memWrite, if_pos ⟨rfl, h⟩]

/-- A write leaves the read of every other address. -/
theorem memRead_memWrite_of_ne (s : State) {a b : Int} (v : Int) (h : b ≠ a) :
    memRead (memWrite s a v) b = memRead s b := by
  rw [memRead_memWrite, if_neg fun hab => h hab.1.symm]

/-! ## The obligations -/

/-- Settles O16: in range by the canonical form's lookup, for no key and out of range by `memRead`'s two defaults. -/
theorem memoryRead : Obligations.MemoryRead := fun s _ =>
  ⟨fun _ h0 h1 hwf hm => memRead_of_mem ⟨h0, h1⟩ hwf hm, memRead_of_not_mem_keys, memRead_of_not_inRange s⟩

/-- Settles O17: the laws of a read and of a lookup after a write, and the frame of a write. -/
theorem memoryWrite : Obligations.MemoryWrite := by
  intro s a v
  refine ⟨fun h0 h1 => ⟨memRead_memWrite_same s v ⟨h0, h1⟩, ?key, fun b => memRead_memWrite_of_ne s v, ?otherKeys,
    memWrite_eq_with_mem s a v⟩, memWrite_of_not_inRange s v⟩
  case key => rw [lookup_memWrite, if_pos (by omega)]
  case otherKeys =>
    intro k hk
    rw [lookup_memWrite, if_neg (by omega)]

/-- A poke and then a read of the same address answer what `memRead` gives after `memWrite`. -/
theorem calls_setMemory_getMemory (s : State) (a v : Int) :
    calls [.setMemory a v, .getMemory a] s =
      .next ([.nothing, .value (memRead (memWrite s a v) a)], memWrite s a v) := rfl

/-- Settles O19: in range the read sees the poke; out of range the poke is dropped and the read is 0. -/
theorem hostMemoryRoundTrip : Obligations.HostMemoryRoundTrip := by
  intro s a v
  rw [calls_setMemory_getMemory]
  refine ⟨fun h => ⟨memWrite s a v, ?inside⟩, fun h => ?outside⟩
  case inside => rw [memRead_memWrite_same s v h]
  case outside => rw [memWrite_of_not_inRange s v h, memRead_of_not_inRange s h]

end Sys2Proof.Machine
end

section
/-! PROOFS. The obligations of spec/30_encoding.md: the shapes of an operand token. One equation per branch of `classify`,
and `classify_cases`, which says once what `classify` can answer. -/

namespace Sys2Proof

/-! ## One equation per token shape -/

/-- A token in brackets names no register. -/
theorem regOf_brackets (u : Text) : regOf? ('[' :: (u ++ [']'])) = none := by
  rw [Option.eq_none_iff_forall_ne_some]
  intro r hr
  have hname := regOf_eq_some.1 hr
  cases r <;> simp [Reg.name] at hname

/-- Register mode (spec/30_encoding.md R81). -/
theorem classify_name (r : Reg) : classify r.name = .reg r := classify_token (.reg r)

/-- Register-indirect mode (spec/30_encoding.md R82). -/
theorem classify_brackets_name (r : Reg) : classify ('[' :: (r.name ++ [']'])) = .ind r := classify_token (.ind r)

/-- Direct mode (spec/30_encoding.md R83): brackets hide the literal from register mode, and a literal is no name. -/
theorem classify_brackets_literal {t : Text} {v : Int} (h : intLiteral? t = some v) :
    classify ('[' :: (t ++ [']'])) = .dir (wrap v) := by
  have hname : regOf? t = none := (intLiteral_shape h).1
  simp only [classify, regOf_brackets, bracketed_eq_some.2 rfl, hname, h]

/-- Immediate mode (spec/30_encoding.md R84): a literal is neither a name nor in brackets. -/
theorem classify_literal {t : Text} {v : Int} (h : intLiteral? t = some v) : classify t = .imm (wrap v) := by
  obtain ⟨hname, hbrackets⟩ := intLiteral_shape h
  simp only [classify, hname, hbrackets, h]

/-! ## What `classify` can answer -/

/-- Every token is of one of the four shapes, with the descriptor of its shape, or falls back to `Imm(0)`
(spec/30_encoding.md R80 to R85). -/
theorem classify_cases (t : Text) :
    (∃ r : Reg, t = r.name ∧ classify t = .reg r) ∨
    (∃ r : Reg, t = '[' :: (r.name ++ [']']) ∧ classify t = .ind r) ∨
    (∃ u v, t = '[' :: (u ++ [']']) ∧ intLiteral? u = some v ∧ classify t = .dir (wrap v)) ∨
    (∃ v, intLiteral? t = some v ∧ classify t = .imm (wrap v)) ∨
    classify t = .imm 0 := by
  cases hreg : regOf? t with
  | some r =>
    obtain rfl := regOf_eq_some.1 hreg
    exact .inl ⟨r, rfl, classify_name r⟩
  | none =>
    cases hbr : bracketed? t with
    | some u =>
      obtain rfl := bracketed_eq_some.1 hbr
      cases hin : regOf? u with
      | some r =>
        obtain rfl := regOf_eq_some.1 hin
        exact .inr (.inl ⟨r, rfl, classify_brackets_name r⟩)
      | none =>
        cases hlit : intLiteral? u with
        | some v => exact .inr (.inr (.inl ⟨u, v, rfl, hlit, classify_brackets_literal hlit⟩))
        | none => exact .inr (.inr (.inr (.inr (by simp only [classify, hreg, hbr, hin, hlit]))))
    | none =>
      cases hlit : intLiteral? t with
      | some v => exact .inr (.inr (.inr (.inl ⟨v, rfl, classify_literal hlit⟩)))
      | none => exact .inr (.inr (.inr (.inr (by simp only [classify, hreg, hbr, hlit]))))

/-- Only a register's own name is in register mode. -/
theorem classify_eq_reg {t : Text} {r : Reg} : classify t = .reg r ↔ t = r.name := by
  refine ⟨fun h => ?_, fun h => h ▸ classify_name r⟩
  obtain ⟨q, ht, hc⟩ | ⟨q, -, hc⟩ | ⟨u, v, -, -, hc⟩ | ⟨v, -, hc⟩ | hc := classify_cases t
  case inl =>
    obtain rfl : q = r := Operand.reg.inj (hc.symm.trans h)
    exact ht
  all_goals exact nomatch hc.symm.trans h

/-- Only a register's own name in brackets is in register-indirect mode. -/
theorem classify_eq_ind {t : Text} {r : Reg} : classify t = .ind r ↔ t = '[' :: (r.name ++ [']']) := by
  refine ⟨fun h => ?_, fun h => h ▸ classify_brackets_name r⟩
  obtain ⟨q, -, hc⟩ | ⟨q, ht, hc⟩ | ⟨u, v, -, -, hc⟩ | ⟨v, -, hc⟩ | hc := classify_cases t
  case inr.inl =>
    obtain rfl : q = r := Operand.ind.inj (hc.symm.trans h)
    exact ht
  all_goals exact nomatch hc.symm.trans h

/-! ## The obligation -/

/-- Settles O4: the two register modes by inversion of `classify`, the two literal modes by its equations, and the spec's
own sample tokens by evaluation. -/
theorem tokenShapesClassify : Obligations.TokenShapesClassify := by
  refine ⟨rfl, rfl, rfl, rfl, fun _ _ => classify_eq_reg, fun _ _ => classify_eq_ind,
    fun _ _ h => ⟨classify_literal h, classify_brackets_literal h⟩, ?misCased, ?negative, ?large, ?spaced⟩
  case misCased => decide
  case negative => decide
  case large => decide
  case spaced => decide

end Sys2Proof
end

section
/-! PROOFS. The obligations of spec/40_cycle.md: a step that executes. Both rest on `stepCall_execute` of Laws/Cycle.lean;
what they add to it is that a fetched index is not halted, and the fields of the advanced state. -/

namespace Sys2Proof.Machine

open Sys2Proof

/-! ## Where a record is fetched -/

/-- A running machine whose `pc` is an index of the program is not halted (spec/40_cycle.md R100). -/
theorem haltedCondition_of_fetch {s : State} {r : InstrRecord} (hrun : s.running = true) (hpc : 0 ≤ s.pc)
    (hr : s.program[s.pc.toNat]? = some r) : haltedCondition s = false := by
  obtain ⟨hlt, -⟩ := List.getElem?_eq_some_iff.1 hr
  have hindex : ¬ (s.program.length : Int) ≤ s.pc := by omega
  simp [haltedCondition, hrun, hindex]

/-- The fetch does not change which jumps are taken. -/
@[simp] theorem jumpTaken_latch (i : Instr) (r : InstrRecord) (s : State) :
    jumpTaken i (latch r s) = jumpTaken i s := rfl

/-! ## The fields after an executed step -/

/-- `pc` at the end of a step: the target of a taken jump, else the next index (spec/40_cycle.md R110). -/
theorem advance_execState_latch_pc (i : Instr) (r : InstrRecord) (s : State) :
    (advance (execState i (latch r s))).pc = if jumpTaken i s then readOp i.operand1 s else s.pc + 1 := by
  rw [advance_pc, execState_pc, jumpTaken_latch, readOp_latch, latch_pc]
  split
  case isTrue => exact Int.sub_add_cancel _ _
  case isFalse => rfl

/-! ## The obligations -/

/-- Settles O46: the instruction's answer is its `execState`, and `stepCall_execute` advances that. -/
theorem stepRunsDecodedInstruction : Obligations.StepRunsDecodedInstruction := by
  intro s t r i hrun hpc hr hi hexec
  obtain rfl : t = execState i (latch r s) := exec_next hexec
  have hstep := stepCall_execute (haltedCondition_of_fetch hrun hpc hr) hpc hr hi
  exact ⟨hstep, step_of_stepCall hstep⟩

/-- Settles O47: an instruction leaves the control fields as the fetch left them, and `pc` is the target or the next
index. -/
theorem stepAdvances : Obligations.StepAdvances := by
  intro s r i hrun hpc hr hi
  have hstep := stepCall_execute (haltedCondition_of_fetch hrun hpc hr) hpc hr hi
  obtain ⟨-, hir, hexecuted, hrunning, -⟩ := execState_control i (latch r s)
  refine ⟨advance (execState i (latch r s)), hstep, ?executed, ?ir, ?running, advance_execState_latch_pc i r s⟩
  case executed => rw [advance_executed, hexecuted, latch_executed]
  case ir => rw [advance_ir, hir, latch_ir]
  case running => rw [advance_running, hrunning, latch_running, hrun]

end Sys2Proof.Machine
end

section
/-! PROOFS. The obligation of spec/41_operands.md: `Read` and `Write` of each descriptor. The equation of each descriptor
comes first, then the frame of a write; where a write lands is `writeOp_writes` of Laws/Operands.lean. -/

namespace Sys2Proof.Machine

open Sys2Proof

/-! ## One equation per descriptor -/

/-- The read of register mode (spec/41_operands.md R122). -/
@[simp] theorem readOp_reg (r : Reg) (s : State) : readOp (.reg r) s = readReg s r := rfl

/-- The read of register-indirect mode (spec/41_operands.md R124). -/
@[simp] theorem readOp_ind (r : Reg) (s : State) : readOp (.ind r) s = memRead s (readReg s r) := rfl

/-- The read of direct mode (spec/41_operands.md R125). -/
@[simp] theorem readOp_dir (n : Int) (s : State) : readOp (.dir n) s = memRead s n := rfl

/-- The read of immediate mode (spec/41_operands.md R126). -/
@[simp] theorem readOp_imm (n : Int) (s : State) : readOp (.imm n) s = n := rfl

/-- A write to an immediate is silently ignored (spec/41_operands.md R126). -/
@[simp] theorem writeOp_imm (n v : Int) (s : State) : writeOp (.imm n) v s = s := rfl

/-! ## The frame of a write -/

/-- An operand's write leaves the flags alone. -/
theorem writeOp_sameFlags (o : Operand) (v : Int) (s : State) : SameFlags s (writeOp o v s) :=
  ⟨writeOp_zf o v s, writeOp_sf o v s⟩

/-- An operand's write leaves the control fields alone. -/
theorem writeOp_sameControl (o : Operand) (v : Int) (s : State) : SameControl s (writeOp o v s) :=
  ⟨writeOp_program o v s, writeOp_ir o v s, writeOp_executed o v s, writeOp_running o v s, writeOp_lastError o v s⟩

/-! ## The obligation -/

/-- Settles O21: the reads by their equations, the three writes by `writeOp_writes` at the place each descriptor resolves
to, the immediate's write by its equation, and the frame by the lemmas above. -/
theorem operandReadsAndWrites : Obligations.OperandReadsAndWrites := by
  intro s v
  refine ⟨fun r => readOp_reg r s, fun r => readOp_ind r s, fun n => readOp_dir n s, fun n => readOp_imm n s,
    ?toRegister, ?throughRegister, ?toAddress, fun n => writeOp_imm n v s, ?frame⟩
  case toRegister => exact fun r => writeOp_writes (.reg r) v s
  case throughRegister => exact fun r => writeOp_writes (.ind r) v s
  case toAddress => exact fun n => writeOp_writes (.dir n) v s
  case frame => exact fun o => ⟨writeOp_sameFlags o v s, writeOp_sameControl o v s, writeOp_pc o v s⟩

end Sys2Proof.Machine
end

section
/-! PROOFS. The obligation of spec/42_move.md: `mov`. Two facts that hold of more than `mov` come first: the encoding of
every mnemonic by its own spelling and code, and all a meaning does that is one operand write. -/

namespace Sys2Proof.Machine

open Sys2Proof

/-! ## Encoding and frame of a one-write meaning -/

/-- Every mnemonic is named by its spelling and has its code of the table (spec/30_encoding.md R74, R92). -/
theorem hasEncoding_name_code (m : Mnemonic) : HasEncoding m m.name m.code := ⟨mnemonicOf_name m, rfl⟩

/-- An operand's write with its whole frame: the place it resolves to takes the value, and the flags, the control fields
and `pc` stay (spec/41_operands.md R121). -/
theorem writeOp_writes_frame (o : Operand) (v : Int) (s : State) :
    WritesPlace (resolve o s) v s (writeOp o v s) ∧ SameFlags s (writeOp o v s) ∧ SameControl s (writeOp o v s) ∧
      (writeOp o v s).pc = s.pc :=
  ⟨writeOp_writes o v s, writeOp_sameFlags o v s, writeOp_sameControl o v s, writeOp_pc o v s⟩

/-! ## The move -/

/-- `mov` writes its destination with what its source reads in the old state (spec/42_move.md R140). -/
theorem exec_mov (d s : Operand) (st : State) : exec (.mov d s) st = .next (writeOp d (readOp s st) st) := rfl

/-- Settles O22: `mov` is one operand write, of the value its source reads before it. -/
theorem movResult : Obligations.MovResult := by
  refine ⟨?encoding, fun d s st => ?result⟩
  case encoding => exact hasEncoding_name_code .mov
  case result => exact ⟨writeOp d (readOp s st) st, exec_mov d s st, writeOp_writes_frame d (readOp s st) st⟩

end Sys2Proof.Machine
end

section
/-! PROOFS. The obligations of spec/43_arithmetic.md. First what a flag write adds to a next state and what it leaves alone;
then the equation of each instruction; each obligation is its equation with the frame of one operand write
(`writeOp_writes_frame`), of that write and a flag write (`setFlags_writeOp_frame`), or of a flag write alone. -/

namespace Sys2Proof.Machine

open Sys2Proof

/-! ## What a flag write sets and leaves alone -/

/-- The zero flag is set exactly by a zero result (spec/43_arithmetic.md R150). -/
theorem setFlags_zf_iff (r : Int) (s : State) : (setFlags r s).zf = true ↔ r = 0 := by
  rw [setFlags_zf, beq_iff_eq]

/-- The sign flag is set exactly by a negative result (spec/43_arithmetic.md R150). -/
theorem setFlags_sf_iff (r : Int) (s : State) : (setFlags r s).sf = true ↔ r < 0 := by
  rw [setFlags_sf, decide_eq_true_iff]

/-- A flag write leaves registers and memory alone. -/
theorem setFlags_sameData (r : Int) (s : State) : SameData s (setFlags r s) := ⟨fun _ => rfl, setFlags_mem r s⟩

/-- A flag write leaves the control fields alone. -/
theorem setFlags_sameControl (r : Int) (s : State) : SameControl s (setFlags r s) :=
  ⟨setFlags_program r s, setFlags_ir r s, setFlags_executed r s, setFlags_running r s, setFlags_lastError r s⟩

/-- What is written to a place is seen by registers and memory only, so a step between states of the same data keeps it. -/
theorem WritesPlace.trans_sameData {p : Place} {v : Int} {s t u : State} (h : WritesPlace p v s t)
    (hd : SameData t u) : WritesPlace p v s u := by
  obtain ⟨hreg, hread, hkey⟩ := h
  obtain ⟨hregs, hmem⟩ := hd
  refine ⟨fun r => (hregs r).trans (hreg r), fun a => ?reads, fun k => ?keys⟩
  case reads => rw [← hread a, memRead, memRead, hmem]
  case keys => rw [hmem, hkey k]

/-- Control fields kept by two steps are kept by both together. -/
theorem SameControl.trans {s t u : State} (h : SameControl s t) (h' : SameControl t u) : SameControl s u := by
  obtain ⟨hprogram, hir, hexecuted, hrunning, herror⟩ := h
  obtain ⟨hprogram', hir', hexecuted', hrunning', herror'⟩ := h'
  exact ⟨hprogram'.trans hprogram, hir'.trans hir, hexecuted'.trans hexecuted, hrunning'.trans hrunning,
    herror'.trans herror⟩

/-- An operand's write followed by the flags of a result, with the whole frame: the place the operand resolves to takes the
value, the flags say whether the result is 0 and whether it is negative, the control fields and `pc` stay. -/
theorem setFlags_writeOp_frame (o : Operand) (v r : Int) (s : State) :
    WritesPlace (resolve o s) v s (setFlags r (writeOp o v s)) ∧
      ((setFlags r (writeOp o v s)).zf = true ↔ r = 0) ∧ ((setFlags r (writeOp o v s)).sf = true ↔ r < 0) ∧
      SameControl s (setFlags r (writeOp o v s)) ∧ (setFlags r (writeOp o v s)).pc = s.pc := by
  obtain ⟨hwrites, -, hcontrol, hpc⟩ := writeOp_writes_frame o v s
  exact ⟨hwrites.trans_sameData (setFlags_sameData r _), setFlags_zf_iff r _, setFlags_sf_iff r _,
    hcontrol.trans (setFlags_sameControl r _), (setFlags_pc r _).trans hpc⟩

/-! ## One equation per instruction -/

/-- `add` writes the sum and sets the flags from it (spec/43_arithmetic.md R151). -/
theorem exec_add (d s : Operand) (st : State) :
    exec (.add d s) st = .next (setFlags (wrap (readOp d st + readOp s st))
      (writeOp d (wrap (readOp d st + readOp s st)) st)) := rfl

/-- `sub` writes the destination minus the source and sets the flags from it (spec/43_arithmetic.md R152). -/
theorem exec_sub (d s : Operand) (st : State) :
    exec (.sub d s) st = .next (setFlags (wrap (readOp d st - readOp s st))
      (writeOp d (wrap (readOp d st - readOp s st)) st)) := rfl

/-- `mul` writes the product (spec/43_arithmetic.md R153). -/
theorem exec_mul (d s : Operand) (st : State) :
    exec (.mul d s) st = .next (writeOp d (wrap (readOp d st * readOp s st)) st) := rfl

/-- `div` by 0 does nothing (spec/43_arithmetic.md R154). -/
theorem exec_div_of_eq_zero (d : Operand) {s : Operand} {st : State} (h : readOp s st = 0) :
    exec (.div d s) st = .next st := if_pos h

/-- `div` by another divisor writes the truncated quotient (spec/43_arithmetic.md R154). -/
theorem exec_div_of_ne_zero (d : Operand) {s : Operand} {st : State} (h : readOp s st ≠ 0) :
    exec (.div d s) st = .next (writeOp d (wrap (tdiv (readOp d st) (readOp s st))) st) := if_neg h

/-- `inc` writes its operand plus 1 (spec/43_arithmetic.md R155). -/
theorem exec_inc (d u : Operand) (st : State) :
    exec (.inc d u) st = .next (writeOp d (wrap (readOp d st + 1)) st) := rfl

/-- `cmp` sets the flags from the difference (spec/43_arithmetic.md R156). -/
theorem exec_cmp (a b : Operand) (st : State) :
    exec (.cmp a b) st = .next (setFlags (wrap (readOp a st - readOp b st)) st) := rfl

/-! ## The obligations -/

/-- Settles O23: `add` is one operand write and the flags of what it wrote. -/
theorem addResult : Obligations.AddResult :=
  ⟨hasEncoding_name_code .add, fun d s st => ⟨_, exec_add d s st, setFlags_writeOp_frame d _ _ st⟩⟩

/-- Settles O24: `sub` is one operand write and the flags of what it wrote. -/
theorem subResult : Obligations.SubResult :=
  ⟨hasEncoding_name_code .sub, fun d s st => ⟨_, exec_sub d s st, setFlags_writeOp_frame d _ _ st⟩⟩

/-- Settles O25: `mul` is one operand write. -/
theorem mulResult : Obligations.MulResult :=
  ⟨hasEncoding_name_code .mul, fun d s st => ⟨_, exec_mul d s st, writeOp_writes_frame d _ st⟩⟩

/-- Settles O26: `div` is one operand write unless the divisor reads 0, and then nothing. -/
theorem divResult : Obligations.DivResult := by
  refine ⟨hasEncoding_name_code .div, fun d s st => ⟨fun hzero => ?byZero, fun hne => ?quotient⟩⟩
  case byZero => exact exec_div_of_eq_zero d hzero
  case quotient => exact ⟨_, exec_div_of_ne_zero d hne, writeOp_writes_frame d _ st⟩

/-- Settles O27: `inc` is one operand write, whatever its second operand. -/
theorem incResult : Obligations.IncResult :=
  ⟨hasEncoding_name_code .inc, fun d u st => ⟨_, exec_inc d u st, writeOp_writes_frame d _ st⟩⟩

/-- Settles O28: `cmp` is one flag write. -/
theorem cmpResult : Obligations.CmpResult :=
  ⟨hasEncoding_name_code .cmp, fun a b st => ⟨_, exec_cmp a b st, setFlags_sameData _ st, setFlags_zf_iff _ st,
    setFlags_sf_iff _ st, setFlags_sameControl _ st, setFlags_pc _ st⟩⟩

end Sys2Proof.Machine
end

section
/-! PROOFS. The obligations of spec/44_logic.md. None of the four instructions sets a flag: each is one operand write of a
bitwise function of its operands, so each obligation is its equation with the frame of that write (`writeOp_writes_frame`). -/

namespace Sys2Proof.Machine

open Sys2Proof

/-! ## The complement and one equation per instruction -/

/-- The complement in arithmetic (spec/00_scope.md R18). -/
theorem bnot_eq_neg_sub_one (a : Int) : bnot a = -a - 1 := rfl

/-- `and` writes the bitwise AND of what its operands read (spec/44_logic.md R171). -/
theorem exec_and (d s : Operand) (st : State) :
    exec (.and d s) st = .next (writeOp d (band (readOp d st) (readOp s st)) st) := rfl

/-- `or` writes the bitwise OR of what its operands read (spec/44_logic.md R172). -/
theorem exec_or (d s : Operand) (st : State) :
    exec (.or d s) st = .next (writeOp d (bor (readOp d st) (readOp s st)) st) := rfl

/-- `xor` writes the bitwise exclusive OR of what its operands read (spec/44_logic.md R173). -/
theorem exec_xor (d s : Operand) (st : State) :
    exec (.xor d s) st = .next (writeOp d (bxor (readOp d st) (readOp s st)) st) := rfl

/-- `not` writes the complement of what its first operand reads (spec/44_logic.md R174). -/
theorem exec_not (d u : Operand) (st : State) :
    exec (.not d u) st = .next (writeOp d (bnot (readOp d st)) st) := rfl

/-! ## The obligations -/

/-- Settles O29: `and` is one operand write. -/
theorem andResult : Obligations.AndResult :=
  ⟨hasEncoding_name_code .and, fun d s st => ⟨_, exec_and d s st, writeOp_writes_frame d _ st⟩⟩

/-- Settles O30: `or` is one operand write. -/
theorem orResult : Obligations.OrResult :=
  ⟨hasEncoding_name_code .or, fun d s st => ⟨_, exec_or d s st, writeOp_writes_frame d _ st⟩⟩

/-- Settles O31: `xor` is one operand write. -/
theorem xorResult : Obligations.XorResult :=
  ⟨hasEncoding_name_code .xor, fun d s st => ⟨_, exec_xor d s st, writeOp_writes_frame d _ st⟩⟩

/-- Settles O32: `not` is one operand write, whatever its second operand, and the complement it writes is arithmetic. -/
theorem notResult : Obligations.NotResult := by
  refine ⟨hasEncoding_name_code .not, fun d u st => ?result⟩
  case result =>
    obtain ⟨hwrites, hflags, hcontrol, hpc⟩ := writeOp_writes_frame d (bnot (readOp d st)) st
    exact ⟨_, exec_not d u st, hwrites, bnot_eq_neg_sub_one _, hflags, hcontrol, hpc⟩

end Sys2Proof.Machine
end

section
/-! PROOFS. The obligations of spec/45_control.md. A jump does nothing but redirect `pc`, so each obligation is the
instruction's equation with what a redirection is, under no condition (`redirect_eq_with_pc`), under a set flag
(`redirectIf_eq_ite`) or under a clear one (`redirectIf_not_eq_ite`). -/

namespace Sys2Proof.Machine

open Sys2Proof

/-! ## What a redirection changes -/

/-- The frame of a redirection: no field but `pc` changes (spec/45_control.md R180). -/
theorem redirect_eq_with_pc (t : Int) (s : State) : redirect t s = { s with pc := t - 1 } := rfl

/-- A redirection whose condition holds is taken. -/
@[simp] theorem redirectIf_true (t : Int) (s : State) : redirectIf true t s = redirect t s := rfl

/-- A redirection whose condition fails does nothing. -/
@[simp] theorem redirectIf_false (t : Int) (s : State) : redirectIf false t s = s := rfl

/-- A redirection on a flag is taken when the flag is set. -/
theorem redirectIf_eq_ite (flag : Bool) (t : Int) (s : State) :
    redirectIf flag t s = if flag = true then { s with pc := t - 1 } else s := by
  cases flag with
  | true => rw [redirectIf_true, redirect_eq_with_pc, if_pos rfl]
  | false => rw [redirectIf_false, if_neg Bool.false_ne_true]

/-- A redirection on the complement of a flag is taken when the flag is clear. -/
theorem redirectIf_not_eq_ite (flag : Bool) (t : Int) (s : State) :
    redirectIf (!flag) t s = if flag = false then { s with pc := t - 1 } else s := by
  simp only [redirectIf_eq_ite, Bool.not_eq_true']

/-! ## One equation per instruction -/

/-- `jmp` redirects to what its first operand reads (spec/45_control.md R181). -/
theorem exec_jmp (t u : Operand) (st : State) : exec (.jmp t u) st = .next (redirect (readOp t st) st) := rfl

/-- `jz` redirects on the zero flag (spec/45_control.md R182). -/
theorem exec_jz (t u : Operand) (st : State) : exec (.jz t u) st = .next (redirectIf st.zf (readOp t st) st) := rfl

/-- `jnz` redirects on the complement of the zero flag (spec/45_control.md R183). -/
theorem exec_jnz (t u : Operand) (st : State) :
    exec (.jnz t u) st = .next (redirectIf (!st.zf) (readOp t st) st) := rfl

/-- `js` redirects on the sign flag (spec/45_control.md R184). -/
theorem exec_js (t u : Operand) (st : State) : exec (.js t u) st = .next (redirectIf st.sf (readOp t st) st) := rfl

/-- `jns` redirects on the complement of the sign flag (spec/45_control.md R185). -/
theorem exec_jns (t u : Operand) (st : State) :
    exec (.jns t u) st = .next (redirectIf (!st.sf) (readOp t st) st) := rfl

/-! ## The obligations -/

/-- Settles O33: `jmp` is one redirection, whatever its second operand. -/
theorem jmpResult : Obligations.JmpResult := by
  refine ⟨hasEncoding_name_code .jmp, fun t u st => ?result⟩
  case result => rw [exec_jmp, redirect_eq_with_pc]

/-- Settles O34: `jz` is a redirection on a set flag. -/
theorem jzResult : Obligations.JzResult := by
  refine ⟨hasEncoding_name_code .jz, fun t u st => ?result⟩
  case result => rw [exec_jz, redirectIf_eq_ite]

/-- Settles O35: `jnz` is a redirection on a clear flag. -/
theorem jnzResult : Obligations.JnzResult := by
  refine ⟨hasEncoding_name_code .jnz, fun t u st => ?result⟩
  case result => rw [exec_jnz, redirectIf_not_eq_ite]

/-- Settles O36: `js` is a redirection on a set flag. -/
theorem jsResult : Obligations.JsResult := by
  refine ⟨hasEncoding_name_code .js, fun t u st => ?result⟩
  case result => rw [exec_js, redirectIf_eq_ite]

/-- Settles O37: `jns` is a redirection on a clear flag. -/
theorem jnsResult : Obligations.JnsResult := by
  refine ⟨hasEncoding_name_code .jns, fun t u st => ?result⟩
  case result => rw [exec_jns, redirectIf_not_eq_ite]

end Sys2Proof.Machine
end

section
/-! PROOFS. The obligations of spec/30_encoding.md on lines and programs. A line that opens with a mnemonic is kept, and
its tokens decide its record (`decodeLine_opcode`): every statement about one line rests on that equation. Whole texts
follow by induction over their lines. -/

namespace Sys2Proof

/-! ## Dropped lines -/

/-- A line of white space is dropped. -/
theorem isDropped_space {l : Text} (h : ∀ c ∈ l, isSpace c = true) : isDropped l = true := by
  rw [isDropped, strip_all_space l h]

/-- A line with a character that is not white space is dropped exactly when the first such character is `;`. -/
theorem isDropped_append_cons {ws : Text} (l : Text) {c : Char} (hws : ∀ b ∈ ws, isSpace b = true)
    (hc : isSpace c = false) : isDropped (ws ++ c :: l) = (c == ';') := by
  obtain ⟨m, hm⟩ := strip_head ws l c hws hc
  rw [isDropped, hm]

/-- The white-space characters by their codes (spec/30_encoding.md R71). -/
theorem isSpace_iff (c : Char) : isSpace c = true ↔ c.toNat ∈ [32, 9, 10, 11, 12, 13] := by
  simp only [isSpace, Bool.or_eq_true, beq_iff_eq, Bool.and_eq_true, decide_eq_true_eq, List.mem_cons, List.not_mem_nil,
    or_false]
  omega

/-- Settles O8: `decodeLine` drops what `isDropped` says, and that looks at the first character past the white space. -/
theorem onlyBlankAndCommentLinesDrop : Obligations.OnlyBlankAndCommentLinesDrop := by
  refine ⟨fun n l h => ?blank, fun n ws l c hws hc => ?kept, isSpace_iff⟩
  case blank => exact (decodeLine_dropped_iff n l).2 (isDropped_space h)
  case kept => rw [decodeLine_dropped_iff, isDropped_append_cons l hws hc, beq_iff_eq]

/-! ## Opcodes -/

/-- The character codes from `A` to `Z`. -/
theorem between_A_Z_iff (c : Char) : 'A' ≤ c ∧ c ≤ 'Z' ↔ 65 ≤ c.toNat ∧ c.toNat ≤ 90 := Iff.rfl

/-- Folding moves an upper-case letter up by 32 (spec/30_encoding.md R74). -/
theorem foldCase_toNat {c : Char} (h : 65 ≤ c.toNat ∧ c.toNat ≤ 90) : (foldCase c).toNat = c.toNat + 32 := by
  have hvalid : (c.toNat + 32).isValidChar := Or.inl (by omega)
  rw [foldCase, if_pos (by simpa using h), Char.toNat_ofNat, if_pos hvalid]

/-- Folding leaves every other character (spec/30_encoding.md R74). -/
theorem foldCase_of_not_upper {c : Char} (h : ¬ (65 ≤ c.toNat ∧ c.toNat ≤ 90)) : foldCase c = c :=
  if_neg (by simpa using h)

/-- Settles O7: a token is compared after folding, and folding moves exactly the upper-case letters. -/
theorem opcodeTokensFoldCase : Obligations.OpcodeTokensFoldCase := by
  refine ⟨fun _ _ => mnemonicOf_eq_some, fun c => ?moved, fun c hc => foldCase_toNat ((between_A_Z_iff c).1 hc)⟩
  case moved =>
    rw [between_A_Z_iff]
    refine ⟨fun hne => ?upper, fun hc heq => ?changed⟩
    case upper => exact not_imp_comm.1 foldCase_of_not_upper hne
    case changed =>
      have hcode := foldCase_toNat hc
      rw [heq] at hcode
      omega

/-- An opcode token is not empty and holds no `;`: no spelling is empty or holds one, and folding keeps `;`. -/
theorem opcode_ne_nil_and_not_comment {op : Text} {m : Mnemonic} (h : mnemonicOf? op = some m) :
    op ≠ [] ∧ ';' ∉ op := by
  have hfold : op.map foldCase = m.name := mnemonicOf_eq_some.1 h
  refine ⟨fun hnil => ?nonempty, fun hmem => ?comment⟩
  case nonempty =>
    subst hnil
    cases m <;> exact nomatch hfold
  case comment =>
    have hname : ';' ∈ m.name := hfold ▸ List.mem_map.2 ⟨';', hmem, rfl⟩
    exact (name_chars m _ hname).2.1 rfl

/-! ## The record of a line -/

/-- A line that is not dropped is decoded by its tokens; stripping changes none of them. -/
theorem decodeLine_of_kept {l : Text} (n : Nat) (h : isDropped l = false) :
    decodeLine n l = decodeTokens n l (tokens l) := by
  simp only [decodeLine, h, tokens_strip, Bool.false_eq_true, if_false]

/-- A line that opens with a mnemonic's token is kept, and decoded by that token and those after it. -/
theorem decodeLine_opcode {m : Mnemonic} {w0 op tail : Text} (n : Nat) (hm : mnemonicOf? op = some m)
    (hop : ∀ c ∈ op, isSpace c = false) (hw0 : ∀ c ∈ w0, isSpace c = true)
    (htail : ∀ c, tail.head? = some c → isSpace c = true) :
    decodeLine n (w0 ++ op ++ tail) = decodeTokens n (w0 ++ op ++ tail) (op :: tokens tail) := by
  obtain ⟨hne, hcomment⟩ := opcode_ne_nil_and_not_comment hm
  have htokens : tokens (w0 ++ op ++ tail) = op :: tokens tail := by
    rw [List.append_assoc, tokens_space w0 _ hw0, tokens_word hne hop tail htail]
  have hkept : isDropped (w0 ++ op ++ tail) = false := by
    obtain ⟨c, cs, rfl⟩ := List.exists_cons_of_ne_nil hne
    rw [List.append_assoc, List.cons_append, isDropped_append_cons _ hw0 (hop c List.mem_cons_self)]
    exact beq_false_of_ne fun hc => hcomment (hc ▸ List.mem_cons_self)
  rw [decodeLine_of_kept n hkept, htokens]

/-- The record of an opcode token and the tokens after it: the first two are the operands, missing ones are empty, later
ones are ignored (spec/30_encoding.md R72, R73, R79). -/
theorem decodeTokens_record {m : Mnemonic} {op : Text} {rest : List Text} (n : Nat) (l : Text)
    (hm : mnemonicOf? op = some m) (h1 : isRefusedToken (rest.headD []) = false)
    (h2 : isRefusedToken (rest.tail.headD []) = false) :
    decodeTokens n l (op :: rest) = .record ⟨m, rest.headD [], rest.tail.headD [], l, n⟩ := by
  simp only [decodeTokens, hm, h1, h2, Bool.or_self, Bool.false_eq_true, if_false]

/-- White space, and anything after it, does not open with another character. -/
theorem head_space {w : Text} (l : Text) (hne : w ≠ []) (hw : ∀ c ∈ w, isSpace c = true) :
    ∀ c, (w ++ l).head? = some c → isSpace c = true := by
  obtain ⟨b, bs, rfl⟩ := List.exists_cons_of_ne_nil hne
  rintro c ⟨⟩
  exact hw b List.mem_cons_self

/-- No white space at all, or white space alone, does not open with another character. -/
theorem head_space_nil {w : Text} (hw : ∀ c ∈ w, isSpace c = true) : ∀ c, w.head? = some c → isSpace c = true :=
  fun c hc => hw c (List.mem_of_head? hc)

/-- White space, a token, and what follows it. -/
theorem tokens_space_word {w u l : Text} (hw : ∀ c ∈ w, isSpace c = true) (hne : u ≠ [])
    (hu : ∀ c ∈ u, isSpace c = false) (hl : ∀ c, l.head? = some c → isSpace c = true) :
    tokens (w ++ (u ++ l)) = u :: tokens l := by
  rw [tokens_space w _ hw, tokens_word hne hu l hl]

/-- The empty token is not refused. -/
theorem isRefusedToken_nil : isRefusedToken [] = false := rfl

section lines

variable {m : Mnemonic} {op o1 o2 w0 w1 w2 rest : Text} (n : Nat)

/-- A line of an opcode alone. -/
theorem decodeLine_opcode_alone (hm : mnemonicOf? op = some m) (hop : ∀ c ∈ op, isSpace c = false)
    (hw0 : ∀ c ∈ w0, isSpace c = true) (hw1 : ∀ c ∈ w1, isSpace c = true) :
    decodeLine n (w0 ++ op ++ w1) = .record ⟨m, [], [], w0 ++ op ++ w1, n⟩ := by
  rw [decodeLine_opcode n hm hop hw0 (head_space_nil hw1), tokens_all_space w1 hw1]
  exact decodeTokens_record n _ hm isRefusedToken_nil isRefusedToken_nil

/-- A line of an opcode and one operand. -/
theorem decodeLine_one_operand (hm : mnemonicOf? op = some m) (hop : ∀ c ∈ op, isSpace c = false)
    (ho1 : ∀ c ∈ o1, isSpace c = false ∧ isRefusedChar c = false) (hw0 : ∀ c ∈ w0, isSpace c = true)
    (hw1 : ∀ c ∈ w1, isSpace c = true) (hw2 : ∀ c ∈ w2, isSpace c = true) (hw1ne : w1 ≠ []) (ho1ne : o1 ≠ []) :
    decodeLine n (w0 ++ op ++ w1 ++ o1 ++ w2) = .record ⟨m, o1, [], w0 ++ op ++ w1 ++ o1 ++ w2, n⟩ := by
  have htokens : tokens (w1 ++ (o1 ++ w2)) = [o1] := by
    rw [tokens_space_word hw1 ho1ne (fun c hc => (ho1 c hc).1) (head_space_nil hw2), tokens_all_space w2 hw2]
  have hassoc : w0 ++ op ++ w1 ++ o1 ++ w2 = w0 ++ op ++ (w1 ++ (o1 ++ w2)) := by simp only [List.append_assoc]
  rw [hassoc, decodeLine_opcode n hm hop hw0 (head_space _ hw1ne hw1), htokens]
  exact decodeTokens_record n _ hm (isRefusedToken_eq_false fun c hc => (ho1 c hc).2) isRefusedToken_nil

/-- A line of an opcode, two operands, and anything after white space. -/
theorem decodeLine_two_operands (hm : mnemonicOf? op = some m) (hop : ∀ c ∈ op, isSpace c = false)
    (ho1 : ∀ c ∈ o1, isSpace c = false ∧ isRefusedChar c = false)
    (ho2 : ∀ c ∈ o2, isSpace c = false ∧ isRefusedChar c = false) (hw0 : ∀ c ∈ w0, isSpace c = true)
    (hw1 : ∀ c ∈ w1, isSpace c = true) (hw2 : ∀ c ∈ w2, isSpace c = true)
    (hrest : ∀ c, rest.head? = some c → isSpace c = true) (hw1ne : w1 ≠ []) (ho1ne : o1 ≠ []) (hw2ne : w2 ≠ [])
    (ho2ne : o2 ≠ []) :
    decodeLine n (w0 ++ op ++ w1 ++ o1 ++ w2 ++ o2 ++ rest) =
      .record ⟨m, o1, o2, w0 ++ op ++ w1 ++ o1 ++ w2 ++ o2 ++ rest, n⟩ := by
  have htokens : tokens (w1 ++ (o1 ++ (w2 ++ (o2 ++ rest)))) = o1 :: o2 :: tokens rest := by
    rw [tokens_space_word hw1 ho1ne (fun c hc => (ho1 c hc).1) (head_space _ hw2ne hw2),
      tokens_space_word hw2 ho2ne (fun c hc => (ho2 c hc).1) hrest]
  have hassoc : w0 ++ op ++ w1 ++ o1 ++ w2 ++ o2 ++ rest = w0 ++ op ++ (w1 ++ (o1 ++ (w2 ++ (o2 ++ rest)))) := by
    simp only [List.append_assoc]
  rw [hassoc, decodeLine_opcode n hm hop hw0 (head_space _ hw1ne hw1), htokens]
  exact decodeTokens_record n _ hm (isRefusedToken_eq_false fun c hc => (ho1 c hc).2)
    (isRefusedToken_eq_false fun c hc => (ho2 c hc).2)

end lines

/-- Settles O9: the lines of no, one and two operands. -/
theorem keptLineFields : Obligations.KeptLineFields := by
  intro n m op o1 o2 w0 w1 w2 rest hm hop ho1 ho2 hw0 hw1 hw2 hrest
  exact ⟨decodeLine_opcode_alone n hm hop hw0 hw1, decodeLine_one_operand n hm hop ho1 hw0 hw1 hw2,
    decodeLine_two_operands n hm hop ho1 ho2 hw0 hw1 hw2 hrest⟩

/-! ## The instruction of a record -/

/-- A record whose tokens the load accepts has the instruction of its mnemonic and its tokens' descriptors. -/
theorem decodeRecord_instr {r : InstrRecord} (h1 : isRefusedToken r.operand1 = false)
    (h2 : isRefusedToken r.operand2 = false) :
    decodeRecord r = .instr (Instr.build r.opcode (classify r.operand1) (classify r.operand2)) := by
  simp only [decodeRecord, h1, h2, Bool.or_self, Bool.false_eq_true, if_false]

/-- A record with a refused operand token has no instruction (spec/30_encoding.md R86). -/
theorem decodeRecord_rejected {r : InstrRecord}
    (h : isRefusedToken r.operand1 = true ∨ isRefusedToken r.operand2 = true) :
    decodeRecord r = .rejected (.ambiguousLiteral r.lineNo) := if_pos (by simpa using h)

/-- A token is refused for a `_` or a non-ASCII character in it (spec/30_encoding.md R86). -/
theorem isRefusedToken_iff (t : Text) : isRefusedToken t = true ↔ ∃ c ∈ t, c = '_' ∨ 128 ≤ c.toNat := by
  simp only [isRefusedToken, isRefusedChar, List.any_eq_true, Bool.or_eq_true, beq_iff_eq, decide_eq_true_eq]

/-- Settles O6: `classify_cases` leaves a token of no shape only the fallback; a refused token is what R86 names. -/
theorem otherTokensAreImmediateZero : Obligations.OtherTokensAreImmediateZero := by
  refine ⟨fun t hreg hind hdir himm => ?fallback, by decide, by decide, by decide, by decide, by decide, by decide,
    fun r hr => ?refused⟩
  case fallback =>
    obtain ⟨r, ht, -⟩ | ⟨r, ht, -⟩ | ⟨u, v, ht, hv, -⟩ | ⟨v, hv, -⟩ | hc := classify_cases t
    · exact absurd ht (hreg r)
    · exact absurd ht (hind r)
    · exact absurd hv (hdir u v ht)
    · exact absurd hv (himm v)
    · exact hc
  case refused =>
    rw [← isRefusedToken_iff, ← isRefusedToken_iff] at hr
    exact decodeRecord_rejected hr

/-- Settles O3: seven lines and records of spec/30_encoding.md, evaluated. -/
theorem writtenOutLinesDecode : Obligations.WrittenOutLinesDecode := by
  refine ⟨?movLine, ?mov, ?add, ?xor, ?jnz, ?inc, ?jnsLine⟩
  case movLine => decide
  case mov => decide
  case add => decide
  case xor => decide
  case jnz => decide
  case inc => decide
  case jnsLine => decide

/-! ## The decoder reads back what the encoder writes -/

/-- The line the encoder writes decodes to the record it stands for. -/
theorem decodeLine_encode (n : Nat) (i : Instr) : decodeLine n (encode i) = .record (encodeRecord n i) := by
  have hspace : ∀ c ∈ [' '], isSpace c = true := by simp [isSpace]
  have hdecode := decodeLine_two_operands (w0 := []) (rest := []) n (mnemonicOf_name i.mnemonic)
    (fun c hc => (name_chars _ c hc).2.2) (fun c hc => (token_chars i.operand1 c hc).2)
    (fun c hc => (token_chars i.operand2 c hc).2) nofun hspace hspace nofun (List.cons_ne_nil _ _)
    (token_ne_nil _) (List.cons_ne_nil _ _) (token_ne_nil _)
  have hline : [] ++ i.mnemonic.name ++ [' '] ++ i.operand1.token ++ [' '] ++ i.operand2.token ++ [] = encode i := by
    simp only [encode, List.append_assoc, List.nil_append, List.append_nil, List.cons_append]
  rw [hline] at hdecode
  exact hdecode

/-- The record the encoder's line stands for has the instruction the line was written from. -/
theorem decodeRecord_encodeRecord (n : Nat) (i : Instr) : decodeRecord (encodeRecord n i) = .instr i := by
  have haccepted : ∀ o : Operand, isRefusedToken o.token = false :=
    fun o => isRefusedToken_eq_false fun c hc => (token_chars o c hc).2.2
  rw [decodeRecord_instr (haccepted i.operand1) (haccepted i.operand2)]
  simp only [encodeRecord, classify_token, build_parts]

/-- Settles O1: the line and the record, each read back. -/
theorem decodeOfEncodeIsIdentity : Obligations.DecodeOfEncodeIsIdentity :=
  fun i n _ => ⟨decodeLine_encode n i, decodeRecord_encodeRecord n i⟩

/-! ## The lines of a program -/

/-- The encoder writes no line feed inside a line. -/
theorem newline_not_mem_encode (i : Instr) : '\n' ∉ encode i := by
  have hname : '\n' ∉ i.mnemonic.name := fun h => (name_chars _ _ h).1 rfl
  have htoken : ∀ o : Operand, '\n' ∉ o.token := fun o h => (token_chars o _ h).1 rfl
  simp [encode, hname, htoken]

/-- The encoded lines of a program decode to the records they stand for. -/
theorem decodeLines_map_encode (n : Nat) (is : List Instr) :
    decodeLines n (is.map encode) = .program (encodeRecords n is) := by
  induction is generalizing n with
  | nil => rfl
  | cons i is ih => simp only [List.map_cons, decodeLines, decodeLine_encode, ih, encodeRecords]

/-- The encoder writes a program line by line. -/
theorem encodeProgram_eq_joinLines (is : List Instr) : encodeProgram is = Machine.joinLines (is.map encode) := by
  induction is with
  | nil => rfl
  | cons i is ih =>
    cases is with
    | nil => rfl
    | cons j js => simp only [encodeProgram, Machine.joinLines, List.map_cons, ih]

/-- An encoded program decodes to the records of its instructions, also when it has none. -/
theorem decodeText_encodeProgram (is : List Instr) : decodeText (encodeProgram is) = .program (encodeRecords 1 is) := by
  cases is with
  | nil => decide
  | cons i is =>
    have hlines : ∀ l ∈ (i :: is).map encode, '\n' ∉ l := by
      intro l hl
      obtain ⟨j, -, rfl⟩ := List.mem_map.1 hl
      exact newline_not_mem_encode j
    have hne : (i :: is).map encode ≠ [] := nofun
    rw [decodeText, encodeProgram_eq_joinLines, splitLines_joinLines hne hlines, decodeLines_map_encode]

/-- There is a record for each encoded instruction. -/
theorem encodeRecords_length (n : Nat) (is : List Instr) : (encodeRecords n is).length = is.length := by
  induction is generalizing n with
  | nil => rfl
  | cons i is ih => simp only [encodeRecords, List.length_cons, ih]

/-- The records of an encoded program have its instructions, in order. -/
theorem map_decodeRecord_encodeRecords (n : Nat) (is : List Instr) :
    (encodeRecords n is).map decodeRecord = is.map RecordResult.instr := by
  induction is generalizing n with
  | nil => rfl
  | cons i is ih => simp only [encodeRecords, List.map_cons, decodeRecord_encodeRecord, ih]

/-- What decoding a list of lines that opens with this one can give. -/
theorem decodeLines_cons_program {n : Nat} {l : Text} {ls : List Text} {rs : List InstrRecord}
    (h : decodeLines n (l :: ls) = .program rs) :
    (decodeLine n l = .dropped ∧ decodeLines (n + 1) ls = .program rs) ∨
    ∃ r qs, decodeLine n l = .record r ∧ decodeLines (n + 1) ls = .program qs ∧ rs = r :: qs := by
  simp only [decodeLines] at h
  cases hl : decodeLine n l with
  | rejected w => simp [hl] at h
  | dropped => exact .inl ⟨rfl, by simpa [hl] using h⟩
  | record r =>
    cases hls : decodeLines (n + 1) ls with
    | rejected w => simp [hl, hls] at h
    | program qs => exact .inr ⟨r, qs, rfl, rfl, by simpa [hl, hls] using h.symm⟩

/-- The record at an index of a decoded program comes from the line before which that many lines are kept. -/
theorem decodeLines_getElem {ls : List Text} {n : Nat} {rs : List InstrRecord} (h : decodeLines n ls = .program rs)
    {i : Nat} {r : InstrRecord} (hr : rs[i]? = some r) :
    ∃ k l, ls[k]? = some l ∧ decodeLine (n + k) l = .record r ∧
      i = (ls.take k).countP (fun x => !isDropped x) := by
  induction ls generalizing n rs i with
  | nil =>
    cases h
    exact nomatch hr
  | cons l ls ih =>
    obtain ⟨hdropped, hls⟩ | ⟨q, qs, hrecord, hls, rfl⟩ := decodeLines_cons_program h
    · obtain ⟨k, x, hx, hdec, hi⟩ := ih hls hr
      have hd : isDropped l = true := (decodeLine_dropped_iff n l).1 hdropped
      exact ⟨k + 1, x, hx, Nat.add_right_comm n 1 k ▸ hdec, by simp [hd, hi]⟩
    · have hd : isDropped l = false := by
        rw [← Bool.not_eq_true, ← decodeLine_dropped_iff n l, hrecord]
        exact nofun
      cases i with
      | zero =>
        cases hr
        exact ⟨0, l, rfl, hrecord, rfl⟩
      | succ i =>
        obtain ⟨k, x, hx, hdec, hi⟩ := ih hls hr
        exact ⟨k + 1, x, hx, Nat.add_right_comm n 1 k ▸ hdec, by simp [hd, hi]⟩

/-- Settles O10: the line `decodeLines_getElem` finds, with the source and the number `decodeLine` stores. -/
theorem programIndexCountsKeptLines : Obligations.ProgramIndexCountsKeptLines := by
  intro t rs h i r hr
  obtain ⟨k, l, hl, hdec, hi⟩ := decodeLines_getElem h hr
  obtain ⟨hsource, hline⟩ := decodeLine_record hdec
  have hk : r.lineNo - 1 = k := by omega
  exact ⟨l, by omega, hk ▸ hl, hline ▸ hdec, hsource, hk ▸ hi⟩

/-- Lines that are not rejected put off the first bad line; what follows it is not read (spec/30_encoding.md R75). -/
theorem decodeLines_append_rejected {good : List Text} (n : Nat) {bad : Text} (later : List Text) {why : DecodeReject}
    (hgood : ∀ k l, good[k]? = some l → ∀ w, decodeLine (n + k) l ≠ .rejected w)
    (hbad : decodeLine (n + good.length) bad = .rejected why) :
    decodeLines n (good ++ bad :: later) = .rejected why := by
  induction good generalizing n with
  | nil =>
    have hbad : decodeLine n bad = .rejected why := hbad
    simp only [List.nil_append, decodeLines, hbad]
  | cons l ls ih =>
    have hrest : decodeLines (n + 1) (ls ++ bad :: later) = .rejected why := by
      refine ih (n + 1) (fun k x hx w => ?_) ?_
      · rw [Nat.add_right_comm]
        exact hgood (k + 1) x hx w
      · rwa [Nat.add_right_comm]
    simp only [List.cons_append, decodeLines, hrest]
    cases hl : decodeLine n l with
    | rejected w => exact absurd hl (hgood 0 l rfl w)
    | dropped => rfl
    | record r => rfl

/-- A kept line whose first token is no mnemonic is rejected with that token (spec/30_encoding.md R75). -/
theorem decodeLine_unknownOpcode {l token : Text} {more : List Text} (n : Nat) (hkept : isDropped l = false)
    (htokens : tokens (strip l) = token :: more) (hunknown : mnemonicOf? token = none) :
    decodeLine n l = .rejected (.unknownOpcode n token) := by
  rw [decodeLine_of_kept n hkept, ← tokens_strip, htokens]
  simp only [decodeTokens, hunknown]

end Sys2Proof
end

section
/-! PROOFS. The obligations of spec/30_encoding.md on integer literals and on the diagnostic word. A literal is a sign
and a run of digits, so its grammar is that of the run (`natLiteral_eq_some`); the display string shows the bits of a
number (`bitText_getElem`). -/

namespace Sys2Proof

/-! ## Integer literals -/

/-- The grammar and value of a run of digits (spec/30_encoding.md R86). -/
theorem natLiteral_eq_some {t : Text} {n : Nat} : natLiteral? t = some n ↔
    ∃ ds : List Nat, ds ≠ [] ∧ (∀ d ∈ ds, d < 10) ∧ t = ds.map digitChar ∧ n = digitsValue ds := by
  refine ⟨fun h => ?digits, ?value⟩
  case digits =>
    cases t with
    | nil => exact nomatch h
    | cons c cs =>
      obtain ⟨ds, hlt, ht, hn⟩ := digits_of_digitsFrom (show digitsFrom 0 (c :: cs) = some n from h)
      have hne : ds ≠ [] := by
        rintro rfl
        exact nomatch ht
      exact ⟨ds, hne, hlt, ht, hn⟩
  case value =>
    rintro ⟨ds, hne, hlt, rfl, rfl⟩
    exact natLiteral_map hne hlt

/-- The grammar and value of a literal: a run of digits, bare or after a sign (spec/30_encoding.md R86). -/
theorem intLiteral_eq_some {t : Text} {v : Int} : intLiteral? t = some v ↔
    (∃ n : Nat, natLiteral? t = some n ∧ v = n) ∨
    (∃ u, ∃ n : Nat, t = '+' :: u ∧ natLiteral? u = some n ∧ v = n) ∨
    (∃ u, ∃ n : Nat, t = '-' :: u ∧ natLiteral? u = some n ∧ v = -n) := by
  refine ⟨fun h => ?shape, ?value⟩
  case shape =>
    cases t with
    | nil => exact nomatch h
    | cons c cs =>
      simp only [intLiteral?] at h
      split at h
      · next hc =>
        obtain ⟨n, hn, rfl⟩ := Option.map_eq_some_iff.1 h
        exact .inr (.inr ⟨cs, n, by rw [hc], hn, rfl⟩)
      · split at h
        · next hc =>
          obtain ⟨n, hn, rfl⟩ := Option.map_eq_some_iff.1 h
          exact .inr (.inl ⟨cs, n, by rw [hc], hn, rfl⟩)
        · obtain ⟨n, hn, rfl⟩ := Option.map_eq_some_iff.1 h
          exact .inl ⟨n, hn, rfl⟩
  case value =>
    rintro (⟨n, hn, rfl⟩ | ⟨u, n, rfl, hn, rfl⟩ | ⟨u, n, rfl, hn, rfl⟩)
    · obtain ⟨ds, hne, hlt, rfl, rfl⟩ := natLiteral_eq_some.1 hn
      exact intLiteral_digits hne hlt
    · simp [intLiteral?, hn]
    · simp [intLiteral?, hn]

/-- Settles O5: the run of digits that `intLiteral_eq_some` leaves after the sign is decimal by `natLiteral_eq_some`. -/
theorem integerLiteralGrammar : Obligations.IntegerLiteralGrammar := by
  refine fun t v => intLiteral_eq_some.trans ⟨?grammar, ?value⟩
  case grammar =>
    rintro (⟨n, hn, rfl⟩ | ⟨u, n, rfl, hn, rfl⟩ | ⟨u, n, rfl, hn, rfl⟩)
    all_goals obtain ⟨ds, hne, hlt, rfl, rfl⟩ := natLiteral_eq_some.1 hn
    · exact ⟨[], ds, .inl rfl, hne, hlt, rfl, (one_mul _).symm⟩
    · exact ⟨['+'], ds, .inr (.inl rfl), hne, hlt, rfl, (one_mul _).symm⟩
    · exact ⟨['-'], ds, .inr (.inr rfl), hne, hlt, rfl, (neg_one_mul _).symm⟩
  case value =>
    rintro ⟨sign, ds, hsign, hne, hlt, rfl, rfl⟩
    have hrun := natLiteral_map hne hlt
    obtain rfl | rfl | rfl := hsign
    · exact .inl ⟨_, hrun, one_mul _⟩
    · exact .inr (.inl ⟨_, _, rfl, hrun, one_mul _⟩)
    · exact .inr (.inr ⟨_, _, rfl, hrun, neg_one_mul _⟩)

/-! ## The diagnostic word -/

/-- The diagnostic word as a number: the code above 36 zero bits (spec/30_encoding.md R90). -/
theorem diagWord_toNat (i : Instr) : (diagWord i).toNat = i.mnemonic.code.toNat * 2 ^ 36 := by
  calc (diagWord i).toNat
      = ((i.mnemonic.code ++ Config.placeholder1).toNat <<< 18) ||| Config.placeholder2.toNat := BitVec.toNat_append ..
    _ = ((i.mnemonic.code.toNat <<< 18 ||| Config.placeholder1.toNat) <<< 18) ||| Config.placeholder2.toNat := by
        rw [BitVec.toNat_append]
    _ = i.mnemonic.code.toNat * 2 ^ 36 := by
        simp [Config.placeholder1, Config.placeholder2, Nat.shiftLeft_eq, Nat.mul_assoc]

/-- A bit text has one character per bit. -/
theorem bitText_length (n w : Nat) : (bitText n w).length = n := by
  induction n with
  | zero => rfl
  | succ n ih => rw [bitText, List.length_cons, ih]

/-- The characters of a bit text, most significant bit first (spec/30_encoding.md R91). -/
theorem bitText_getElem {n k : Nat} (w : Nat) (h : k < n) :
    (bitText n w)[k]? = some (if w.testBit (n - 1 - k) then '1' else '0') := by
  induction n generalizing k with
  | zero => exact absurd h (Nat.not_lt_zero k)
  | succ n ih =>
    cases k with
    | zero => simp [bitText, Nat.testBit_eq_decide_div_mod_eq]
    | succ k =>
      rw [bitText, List.getElem?_cons_succ, ih (Nat.lt_of_succ_lt_succ h)]
      rw [show n - 1 - k = n + 1 - 1 - (k + 1) by omega]

/-- The code of every mnemonic names it (spec/30_encoding.md R92). -/
theorem mnemonicOfCode_code (m : Mnemonic) : mnemonicOfCode? m.code.toNat = some m := by
  cases m <;> rfl

/-- The line of a mnemonic's word is its spelling (log 1). -/
theorem tableLine_code (m : Mnemonic) : tableLine 40 (m.code.toNat * 2 ^ 36) = some m.name := by
  have hlt : m.code.toNat < 2 ^ 4 := m.code.isLt
  have hword : m.code.toNat * 2 ^ 36 < 2 ^ 40 := by omega
  have hcode : m.code.toNat * 2 ^ 36 / 2 ^ 36 = m.code.toNat := Nat.mul_div_cancel _ (by norm_num)
  simp only [tableLine, Nat.mod_eq_of_lt hword, hword, if_true, hcode, mnemonicOfCode_code, Option.map_some]

/-- A mnemonic's spelling alone decodes to it without operands. -/
theorem decodeLine_name (n : Nat) (m : Mnemonic) : decodeLine n m.name = .record ⟨m, [], [], m.name, n⟩ := by
  have hdecode := decodeLine_opcode_alone (w0 := []) (w1 := []) n (mnemonicOf_name m)
    (fun c hc => (name_chars m c hc).2.2) nofun nofun
  rwa [List.nil_append, List.append_nil] at hdecode

/-- The instruction of a record without operands: the empty token is `Imm(0)` (spec/30_encoding.md R73, R85). -/
theorem decodeRecord_no_operands (m : Mnemonic) (l : Text) (n : Nat) :
    decodeRecord ⟨m, [], [], l, n⟩ = .instr (Instr.build m (.imm 0) (.imm 0)) :=
  decodeRecord_instr isRefusedToken_nil isRefusedToken_nil

/-- Settles O12: the word is the code above zero bits, the display string its bits, and its line the mnemonic. -/
theorem diagnosticWordLayout : Obligations.DiagnosticWordLayout := by
  refine fun i => ⟨diagWord_toNat i, bitText_length 40 _, fun k hk => ?character, ?decoded⟩
  case character => exact bitText_getElem _ hk
  case decoded =>
    simp only [decodeTableWord, tableRecord, diagWord_toNat, tableLine_code, decodeLine_name, decodeRecord_no_operands]

end Sys2Proof
end

section
/-! PROOFS. The obligations of spec/70_reset_and_hazards.md on loads. A load is what the decoder says of its text,
over a reset machine (`loadProgram_of_program`, `loadProgram_of_unknownOpcode`). -/

namespace Sys2Proof.Machine

open Sys2Proof

/-- The load of a text that decodes to a program (spec/70_reset_and_hazards.md R232). -/
theorem loadProgram_of_program {text : Text} {rs : List InstrRecord} (s : State) (h : decodeText text = .program rs) :
    loadProgram text s =
      .next (.loaded rs.length, { State.reset with program := rs, running := true }) := by
  simp only [loadProgram, h]
  rfl

/-- The load of a text with an unknown opcode (spec/70_reset_and_hazards.md R233). -/
theorem loadProgram_of_unknownOpcode {text token : Text} {line : Nat} (s : State)
    (h : decodeText text = .rejected (.unknownOpcode line token)) :
    loadProgram text s =
      .next (.rejected line token (OutcomeKind.unknownOpcode line token).message, State.reset) := by
  simp only [loadProgram, h]
  rfl

/-- The load of a text with a refused operand token (spec/30_encoding.md R86). -/
theorem loadProgram_of_ambiguousLiteral {text : Text} {line : Nat} (s : State)
    (h : decodeText text = .rejected (.ambiguousLiteral line)) :
    loadProgram text s = .refused (.ambiguousLiteral line) := by
  simp only [loadProgram, h]

/-- Settles O57: one equation per answer of the decoder, and none of them looks at the state before. -/
theorem loadReplacesTheMachine : Obligations.LoadReplacesTheMachine := by
  refine ⟨fun text s s' => ?sameAnswer, fun _ s _ h => loadProgram_of_program s h,
    fun _ s _ _ h => ⟨_, loadProgram_of_unknownOpcode s h⟩, fun _ s _ h => loadProgram_of_ambiguousLiteral s h⟩
  case sameAnswer =>
    match h : decodeText text with
    | .program rs => rw [loadProgram_of_program s h, loadProgram_of_program s' h]
    | .rejected (.unknownOpcode line token) =>
      rw [loadProgram_of_unknownOpcode s h, loadProgram_of_unknownOpcode s' h]
    | .rejected (.ambiguousLiteral line) =>
      rw [loadProgram_of_ambiguousLiteral s h, loadProgram_of_ambiguousLiteral s' h]

/-- Settles O2: the encoded text decodes to the records of its instructions, one for each. -/
theorem loadInstallsEncodedProgram : Obligations.LoadInstallsEncodedProgram := by
  intro is s _
  have hload := loadProgram_of_program s (decodeText_encodeProgram is)
  rw [encodeRecords_length] at hload
  exact ⟨encodeRecords 1 is, hload, map_decodeRecord_encodeRecords 1 is⟩

/-- Settles O11: the lines before the bad one put it off, and the load answers its number and token. -/
theorem unknownOpcodeFailsTheLoad : Obligations.UnknownOpcodeFailsTheLoad := by
  intro good later bad token more s hlines hgood hkept htokens hunknown
  have hbad : decodeLine (1 + good.length) bad = .rejected (.unknownOpcode (good.length + 1) token) := by
    rw [Nat.add_comm]
    exact decodeLine_unknownOpcode _ hkept htokens hunknown
  have hgood : ∀ k l, good[k]? = some l → ∀ w, decodeLine (1 + k) l ≠ .rejected w := by
    simpa only [Nat.add_comm 1] using hgood
  have htext : decodeText (joinLines (good ++ bad :: later)) = .rejected (.unknownOpcode (good.length + 1) token) := by
    rw [decodeText, splitLines_joinLines (by simp) hlines]
    exact decodeLines_append_rejected 1 later hgood hbad
  exact ⟨_, loadProgram_of_unknownOpcode s htext⟩

end Sys2Proof.Machine
end

section
/-! PROOFS. The obligations of spec/00_scope.md on values. Each function is fixed by a property that only one integer
has: a range and a congruence for `wrap`, a remainder for division, the bits for the bitwise functions
(`eq_of_intBit`). -/

namespace Sys2Proof

/-! ## `wrap` -/

/-- At a finite XLEN `wrap` stays in the range and keeps the value up to a multiple of `2^N` (spec/00_scope.md R16). -/
theorem wrapAt_eq_iff {n : Nat} (hn : 0 < n) (v w : Int) :
    wrapAt (some n) v = w ↔ -2 ^ (n - 1) ≤ w ∧ w < 2 ^ (n - 1) ∧ ∃ k : Int, v = w + k * 2 ^ n := by
  have hdouble : (2 : Int) ^ n = 2 * 2 ^ (n - 1) := (mul_pow_sub_one hn.ne' 2).symm
  have hpos : (0 : Int) < 2 ^ (n - 1) := by positivity
  simp only [wrapAt, hdouble]
  generalize (2 : Int) ^ (n - 1) = p at hpos
  refine ⟨?inRange, ?unique⟩
  case inRange =>
    rintro rfl
    have hnonneg := Int.emod_nonneg (v + p) (b := 2 * p) (by omega)
    have hlt := Int.emod_lt_of_pos (v + p) (b := 2 * p) (by omega)
    refine ⟨by omega, by omega, (v + p) / (2 * p), ?_⟩
    linarith [Int.emod_add_mul_ediv (v + p) (2 * p)]
  case unique =>
    rintro ⟨hlow, hhigh, k, rfl⟩
    rw [add_right_comm, Int.add_mul_emod_self_right, Int.emod_eq_of_lt (by omega) (by omega), add_sub_cancel_right]

/-- Settles O13: the range and the congruence at a finite XLEN, the identity at the machine's own. -/
theorem wrapIsTwosComplement : Obligations.WrapIsTwosComplement :=
  ⟨fun _ v w hn => wrapAt_eq_iff hn v w, Machine.wrap_eq⟩

/-! ## Division -/

/-- A truncated remainder is smaller than the divisor and is 0 or has the dividend's sign. -/
theorem tmod_bounds (a : Int) {b : Int} (hb : b ≠ 0) :
    (a.tmod b).natAbs < b.natAbs ∧ (0 < a.tmod b → 0 < a) ∧ (a.tmod b < 0 → a < 0) := by
  refine ⟨?small, fun hpos => ?positive, fun hneg => ?negative⟩
  case small =>
    rw [Int.natAbs_tmod]
    exact Nat.mod_lt _ (Int.natAbs_pos.2 hb)
  case positive =>
    by_contra ha
    have hflip := Int.tmod_nonneg (a := -a) b (by omega)
    rw [Int.neg_tmod] at hflip
    omega
  case negative =>
    by_contra ha
    have := Int.tmod_nonneg (a := a) b (by omega)
    omega

/-- Two quotients whose remainders are small and both have the dividend's sign are the same: their difference times the
divisor is smaller than the divisor. -/
theorem quotient_unique {a b q q' r r' : Int} (hb : b ≠ 0) (h : a = q * b + r) (h' : a = q' * b + r')
    (hr : r.natAbs < b.natAbs ∧ (0 < r → 0 < a) ∧ (r < 0 → a < 0))
    (hr' : r'.natAbs < b.natAbs ∧ (0 < r' → 0 < a) ∧ (r' < 0 → a < 0)) : q = q' := by
  have hdiff : r' - r = b * (q - q') := by linarith
  have hsmall : (r' - r).natAbs < b.natAbs := by omega
  have hzero : r' - r = 0 := Int.eq_zero_of_dvd_of_natAbs_lt_natAbs ⟨q - q', hdiff⟩ hsmall
  have hq : q - q' = 0 := (mul_eq_zero.1 (hdiff ▸ hzero)).resolve_left hb
  omega

/-- Settles O14: the library's quotient has such a remainder, and no other quotient has. -/
theorem divisionTruncatesTowardZero : Obligations.DivisionTruncatesTowardZero := by
  intro a b q hb
  have hdivide : a = a.tdiv b * b + a.tmod b := (Int.tdiv_mul_add_tmod a b).symm
  rw [tdiv_eq]
  refine ⟨?remainder, ?unique⟩
  case remainder =>
    rintro rfl
    exact ⟨a.tmod b, hdivide, tmod_bounds a hb⟩
  case unique =>
    rintro ⟨r, h, hr⟩
    exact quotient_unique hb hdivide h (tmod_bounds a hb) hr

/-! ## Bits -/

/-- A natural number and a negative integer differ at a bit past both. -/
theorem exists_intBit_ne (m n : Nat) : ∃ i, intBit (.ofNat m) i ≠ intBit (.negSucc n) i := by
  have hbelow : ∀ k ≤ m + n, k.testBit (m + n) = false := fun k hk =>
    Nat.testBit_lt_two_pow (hk.trans_lt Nat.lt_two_pow_self)
  refine ⟨m + n, ?_⟩
  rw [intBit_ofNat, intBit_negSucc, hbelow m (Nat.le_add_right m n), hbelow n (Nat.le_add_left n m)]
  exact Bool.false_ne_true

/-- An integer is determined by its bits (spec/00_scope.md R13). -/
theorem eq_of_intBit {a b : Int} (h : ∀ i, intBit a i = intBit b i) : a = b := by
  match a, b with
  | .ofNat m, .ofNat n =>
    exact congrArg Int.ofNat (Nat.eq_of_testBit_eq fun i => by simpa only [intBit_ofNat] using h i)
  | .negSucc m, .negSucc n =>
    exact congrArg Int.negSucc (Nat.eq_of_testBit_eq fun i => by simpa [intBit_negSucc] using h i)
  | .ofNat m, .negSucc n =>
    obtain ⟨i, hi⟩ := exists_intBit_ne m n
    exact absurd (h i) hi
  | .negSucc m, .ofNat n =>
    obtain ⟨i, hi⟩ := exists_intBit_ne n m
    exact absurd (h i).symm hi

/-- The integer with given bits is the only one with them. -/
theorem eq_iff_of_intBit {x : Int} {f : Nat → Bool} (hx : ∀ i, intBit x i = f i) (c : Int) :
    x = c ↔ ∀ i, intBit c i = f i :=
  ⟨fun h => h ▸ hx, fun h => eq_of_intBit fun i => (hx i).trans (h i).symm⟩

/-- Every bit of `band` (spec/00_scope.md R18). -/
theorem intBit_band (a b : Int) (i : Nat) : intBit (band a b) i = (intBit a i && intBit b i) := by
  match a, b with
  | .ofNat m, .ofNat n => simp only [band, intBit_ofNat, Nat.testBit_and]
  | .ofNat m, .negSucc n =>
    simp only [band, intBit_ofNat, intBit_negSucc, Nat.testBit_xor, Nat.testBit_and]
    cases m.testBit i <;> simp
  | .negSucc m, .ofNat n =>
    simp only [band, intBit_ofNat, intBit_negSucc, Nat.testBit_xor, Nat.testBit_and]
    cases n.testBit i <;> simp
  | .negSucc m, .negSucc n => simp only [band, intBit_negSucc, Nat.testBit_or, Bool.not_or]

/-- Every bit of `bor` (spec/00_scope.md R18). -/
theorem intBit_bor (a b : Int) (i : Nat) : intBit (bor a b) i = (intBit a i || intBit b i) := by
  match a, b with
  | .ofNat m, .ofNat n => simp only [bor, intBit_ofNat, Nat.testBit_or]
  | .ofNat m, .negSucc n =>
    simp only [bor, intBit_ofNat, intBit_negSucc, Nat.testBit_xor, Nat.testBit_and]
    cases n.testBit i <;> simp
  | .negSucc m, .ofNat n =>
    simp only [bor, intBit_ofNat, intBit_negSucc, Nat.testBit_xor, Nat.testBit_and]
    cases m.testBit i <;> simp
  | .negSucc m, .negSucc n => simp only [bor, intBit_negSucc, Nat.testBit_and, Bool.not_and]

/-- Every bit of `bxor` (spec/00_scope.md R18). -/
theorem intBit_bxor (a b : Int) (i : Nat) : intBit (bxor a b) i = (intBit a i ^^ intBit b i) := by
  match a, b with
  | .ofNat m, .ofNat n => simp only [bxor, intBit_ofNat, Nat.testBit_xor]
  | .ofNat m, .negSucc n => simp only [bxor, intBit_ofNat, intBit_negSucc, Nat.testBit_xor, Bool.xor_not]
  | .negSucc m, .ofNat n => simp only [bxor, intBit_ofNat, intBit_negSucc, Nat.testBit_xor, Bool.not_xor]
  | .negSucc m, .negSucc n => simp only [bxor, intBit_ofNat, intBit_negSucc, Nat.testBit_xor, Bool.not_xor_not]

/-- Every bit of `bnot` (spec/00_scope.md R18). -/
theorem intBit_bnot (a : Int) (i : Nat) : intBit (bnot a) i = !intBit a i := by
  match a with
  | .ofNat m =>
    have hneg : bnot (.ofNat m) = .negSucc m := by simp only [bnot, Int.ofNat_eq_natCast, Int.negSucc_eq]; omega
    rw [hneg, intBit_negSucc, intBit_ofNat]
  | .negSucc m =>
    have hnonneg : bnot (.negSucc m) = .ofNat m := by simp only [bnot, Int.ofNat_eq_natCast, Int.negSucc_eq]; omega
    rw [hnonneg, intBit_negSucc, intBit_ofNat, Bool.not_not]

/-- Settles O15: the bits of each function, and an integer is determined by its bits. -/
theorem bitwiseFunctionsActOnEveryBit : Obligations.BitwiseFunctionsActOnEveryBit :=
  ⟨fun a b => eq_iff_of_intBit (intBit_band a b), fun a b => eq_iff_of_intBit (intBit_bor a b),
    fun a b => eq_iff_of_intBit (intBit_bxor a b), fun a => eq_iff_of_intBit (intBit_bnot a),
    Machine.bnot_eq_neg_sub_one⟩

end Sys2Proof
end

section
/-! PROOFS. The obligations of spec/20_memory.md on keys and on the order of writes. Pokes complete one after another
(`calls_setMemory`), so what a read sees after them follows by induction from the last poke back. -/

namespace Sys2Proof.Machine

open Sys2Proof

/-- The keys after a write (spec/20_memory.md R52). -/
theorem mem_keys_memWrite (s : State) (a v : Int) (k : Nat) :
    k ∈ Memory.keys (memWrite s a v).mem ↔ k ∈ Memory.keys s.mem ∨ ((k : Int) = a ∧ k < 4096) := by
  rw [memWrite_mem]
  split
  case isTrue ha =>
    have hrange := (inRange_iff a).1 ha
    have hkey : k = a.toNat ↔ (k : Int) = a ∧ k < 4096 := by omega
    rw [mem_keys_insert, hkey, or_comm]
  case isFalse ha =>
    have hrange := mt (inRange_iff a).2 ha
    have hkey : ¬ ((k : Int) = a ∧ k < 4096) := by omega
    rw [or_iff_left hkey]

/-- Settles O18: the key set of a write, and the canonical form it keeps. -/
theorem writesKeepEveryKey : Obligations.WritesKeepEveryKey :=
  fun s a v => ⟨mem_keys_memWrite s a v, memWrite_wf a v⟩

/-- The state after a list of pokes, in order. -/
def pokeAll (pokes : List (Int × Int)) (s : State) : State := pokes.foldl (fun u p => memWrite u p.1 p.2) s

/-- A list of `setMemory` calls completes, at the state after its pokes. -/
theorem calls_setMemory (pokes : List (Int × Int)) (s : State) :
    ∃ rs, calls (pokes.map fun p => HostCall.setMemory p.1 p.2) s = .next (rs, pokeAll pokes s) := by
  induction pokes generalizing s with
  | nil => exact ⟨[], rfl⟩
  | cons p ps ih =>
    obtain ⟨rs, hrs⟩ := ih (memWrite s p.1 p.2)
    refine ⟨.nothing :: rs, ?_⟩
    simp only [List.map_cons, calls, call, setMemory, hrs]
    rfl

/-- What an address reads after a poke: the value if it was poked in range, 0 if it was poked out of range. -/
theorem memRead_memWrite_by_address (s : State) (a b v : Int) :
    memRead (memWrite s b v) a = if b = a then (if 0 ≤ a ∧ a < 4096 then wrap v else 0) else memRead s a := by
  split
  case isTrue h =>
    subst h
    split
    case isTrue hrange => exact memRead_memWrite_same s v hrange
    case isFalse hrange => exact memRead_of_not_inRange _ hrange
  case isFalse h => exact memRead_memWrite_of_ne s v (Ne.symm h)

/-- A read after pokes sees the last poke of its address, or what was there before (spec/20_memory.md R63). -/
theorem memRead_pokeAll (pokes : List (Int × Int)) (s : State) (a : Int) :
    memRead (pokeAll pokes s) a =
      match pokes.reverse.find? (fun p => p.1 == a) with
      | some p => if 0 ≤ a ∧ a < 4096 then wrap p.2 else 0
      | none => memRead s a := by
  induction pokes using List.reverseRecOn with
  | nil => rfl
  | append_singleton ps p ih =>
    have hlast : pokeAll (ps ++ [p]) s = memWrite (pokeAll ps s) p.1 p.2 := by
      simp only [pokeAll, List.foldl_append, List.foldl_cons, List.foldl_nil]
    rw [hlast, memRead_memWrite_by_address, List.reverse_append, List.reverse_singleton, List.singleton_append]
    by_cases h : p.1 = a
    · rw [if_pos h, List.find?_cons_of_pos (p := fun q : Int × Int => q.1 == a) (beq_iff_eq.2 h)]
    · rw [if_neg h, List.find?_cons_of_neg (p := fun q : Int × Int => q.1 == a) (mt beq_iff_eq.1 h), ih]

/-- Settles O20: the pokes complete, and `memRead_pokeAll` says what the address reads after them. -/
theorem readsSeeTheLatestWrite : Obligations.ReadsSeeTheLatestWrite := by
  intro pokes s a
  obtain ⟨rs, hcalls⟩ := calls_setMemory pokes s
  refine ⟨rs, pokeAll pokes s, hcalls, ?_⟩
  exact memRead_pokeAll pokes s a

end Sys2Proof.Machine
end

section
/-! PROOFS. The rules over all instructions (spec/10_state.md R23, R37, R38, spec/40_cycle.md R112,
spec/43_arithmetic.md R160, spec/60_exceptions.md R201). Each rests on the one description of a next state, `exec_eq`:
a write of operand1, the flags of a result, a redirection, so a rule is shown of these three and not of 16
instructions. -/

namespace Sys2Proof.Machine

open Sys2Proof

/-! ## Which instructions write what -/

/-- An instruction that sets no flags has no result to set them from. -/
theorem flagsOf_eq_none {i : Instr} (s : State) (h : i.mnemonic ∉ [Mnemonic.add, .sub, .cmp]) : flagsOf i s = none := by
  cases i
  case add | sub | cmp => simp [Instr.mnemonic] at h
  all_goals rfl

/-- `add`, `sub` and `cmp` set the flags from a result. -/
theorem flagsOf_eq_some {i : Instr} (s : State) (h : i.mnemonic ∈ [Mnemonic.add, .sub, .cmp]) :
    ∃ r, flagsOf i s = some r := by
  cases i
  case add | sub | cmp => exact ⟨_, rfl⟩
  all_goals simp [Instr.mnemonic] at h

/-- Only the ten instructions that write their first operand have a value for it. -/
theorem mnemonic_of_resultOf {i : Instr} {s : State} {v : Int} (h : resultOf i s = some v) :
    i.mnemonic ∈ [Mnemonic.mov, .add, .sub, .mul, .div, .and, .or, .xor, .not, .inc] := by
  cases i
  case cmp | jmp | jz | jnz | js | jns => exact nomatch h
  all_goals simp [Instr.mnemonic]

/-- Settles O38: the flags of a next state are those of the result, if the instruction has one to set them from. -/
theorem onlyAddSubCmpWriteFlags : Obligations.OnlyAddSubCmpWriteFlags := by
  intro i s t h
  obtain rfl := exec_next h
  refine ⟨fun hkept => ?kept, fun hset => ?set⟩
  case kept => simp only [SameFlags, execState_zf, execState_sf, flagsOf_eq_none s hkept, and_self]
  case set =>
    obtain ⟨r, hr⟩ := flagsOf_eq_some s hset
    refine ⟨r, ?_, ?_⟩
    · simp only [execState_zf, hr, beq_eq_decide]
    · simp only [execState_sf, hr]

/-! ## Reads by the fields they look at -/

/-- A register's read looks at the register file only. -/
theorem readReg_congr {s t : State} (h : t.regs = s.regs) (r : Reg) : readReg t r = readReg s r :=
  congrArg (fun x : Regs => x.get r) h

/-- A cell's read looks at memory only. -/
theorem memRead_congr {s t : State} (h : t.mem = s.mem) (a : Int) : memRead t a = memRead s a := by
  simp only [memRead, h]

/-- What an instruction does to registers and memory: nothing, or one write of operand1 by one of the ten instructions
that write it. -/
theorem writeResult_cases (i : Instr) (s : State) :
    writeResult i s = s ∨
    (i.mnemonic ∈ [Mnemonic.mov, .add, .sub, .mul, .div, .and, .or, .xor, .not, .inc] ∧
      ∃ v, writeResult i s = writeOp i.operand1 v s) := by
  unfold writeResult
  split
  · next v hv => exact .inr ⟨mnemonic_of_resultOf hv, v, rfl⟩
  · exact .inl rfl

/-- An operand resolves to a register only in register mode. -/
theorem resolve_eq_register {o : Operand} {s : State} {r : Reg} : resolve o s = .register r ↔ o = .reg r := by
  cases o <;> simp [resolve]

/-- Settles O39: the data of a next state are those after the write of operand1, and that changes one place. -/
theorem onlyTheDestinationChanges : Obligations.OnlyTheDestinationChanges := by
  intro i s t h
  obtain rfl := exec_next h
  obtain ⟨hregs, hmem⟩ := execState_data i s
  refine ⟨fun r hne => ?register, fun a hne => ?cell⟩
  case register =>
    rw [readReg_congr hregs] at hne
    obtain hkept | ⟨hm, v, hv⟩ := writeResult_cases i s
    · exact absurd (by rw [hkept]) hne
    · rw [hv, writeOp, readReg_writePlace] at hne
      obtain ⟨hplace, -⟩ := ite_ne_right_iff.1 hne
      exact ⟨resolve_eq_register.1 hplace, hm⟩
  case cell =>
    rw [memRead_congr hmem] at hne
    obtain hkept | ⟨hm, v, hv⟩ := writeResult_cases i s
    · exact absurd (by rw [hkept]) hne
    · rw [hv, writeOp, memRead_writePlace] at hne
      obtain ⟨⟨hplace, hlow, hhigh⟩, -⟩ := ite_ne_right_iff.1 hne
      exact ⟨hplace, hlow, hhigh, hm⟩

/-- Settles O40: the next state of `exec_eq`, with its control fields. -/
theorem everyInstructionCompletes : Obligations.EveryInstructionCompletes :=
  fun i s => ⟨execState i s, exec_eq i s, execState_control i s⟩

/-! ## What a program can observe -/

/-- States that agree on registers and on every read of memory read every operand alike. -/
theorem Indistinguishable.readOp_eq {s t : State} (h : Indistinguishable s t) (o : Operand) :
    readOp o s = readOp o t := by
  obtain ⟨hregs, -, -, -, hmem⟩ := h
  exact readOp_congr o (readReg_congr hregs) hmem

/-- Such states name the same place by every operand. -/
theorem Indistinguishable.resolve_eq {s t : State} (h : Indistinguishable s t) (o : Operand) :
    resolve o s = resolve o t := by
  obtain ⟨hregs, -⟩ := h
  exact resolve_congr o (readReg_congr hregs)

/-- A write of the same operand keeps states indistinguishable. -/
theorem Indistinguishable.writeOp {s t : State} (h : Indistinguishable s t) (o : Operand) (v : Int) :
    Indistinguishable (writeOp o v s) (writeOp o v t) := by
  have hplace := h.resolve_eq o
  obtain ⟨hregs, hzf, hsf, hpc, hmem⟩ := h
  refine ⟨regs_ext fun r => ?registers, ?_, ?_, ?_, fun a => ?memory⟩
  case registers =>
    change readReg (Machine.writeOp o v s) r = readReg (Machine.writeOp o v t) r
    rw [Machine.writeOp, Machine.writeOp, readReg_writePlace, readReg_writePlace, hplace, readReg_congr hregs]
  case memory => rw [Machine.writeOp, Machine.writeOp, memRead_writePlace, memRead_writePlace, hplace, hmem]
  all_goals simpa

/-- The flags of the same result keep states indistinguishable. -/
theorem Indistinguishable.setFlags {s t : State} (h : Indistinguishable s t) (r : Int) :
    Indistinguishable (setFlags r s) (setFlags r t) := by
  obtain ⟨hregs, -, -, hpc, hmem⟩ := h
  exact ⟨hregs, rfl, rfl, hpc, hmem⟩

/-- A redirection to the same target keeps states indistinguishable. -/
theorem Indistinguishable.redirect {s t : State} (h : Indistinguishable s t) (target : Int) :
    Indistinguishable (redirect target s) (redirect target t) := by
  obtain ⟨hregs, hzf, hsf, -, hmem⟩ := h
  exact ⟨hregs, hzf, hsf, rfl, hmem⟩

/-- The value an instruction writes is a function of what its operands read. -/
theorem resultOf_congr {s t : State} (i : Instr) (h : ∀ o, readOp o s = readOp o t) : resultOf i s = resultOf i t := by
  cases i <;> simp only [resultOf, h]

/-- The result the flags are set from is a function of what the operands read. -/
theorem flagsOf_congr {s t : State} (i : Instr) (h : ∀ o, readOp o s = readOp o t) : flagsOf i s = flagsOf i t := by
  cases i <;> simp only [flagsOf, h]

/-- Whether a jump is taken is a function of the flags. -/
theorem jumpTaken_congr {s t : State} (i : Instr) (hzf : s.zf = t.zf) (hsf : s.sf = t.sf) :
    jumpTaken i s = jumpTaken i t := by
  simp only [jumpTaken, hzf, hsf]

/-- The next states of indistinguishable states are indistinguishable. -/
theorem Indistinguishable.execState {s t : State} (h : Indistinguishable s t) (i : Instr) :
    Indistinguishable (execState i s) (execState i t) := by
  have hread := h.readOp_eq
  have hresult := resultOf_congr i hread
  have hwrite : Indistinguishable (writeResult i s) (writeResult i t) := by
    unfold writeResult
    rw [hresult]
    cases resultOf i t with
    | none => exact h
    | some v => exact h.writeOp i.operand1 v
  have hflags : Indistinguishable (writeFlags (flagsOf i s) (writeResult i s))
      (writeFlags (flagsOf i t) (writeResult i t)) := by
    rw [flagsOf_congr i hread]
    cases flagsOf i t with
    | none => exact hwrite
    | some r => exact hwrite.setFlags r
  obtain ⟨-, hzf, hsf, -⟩ := h
  unfold Machine.execState
  rw [hread, jumpTaken_congr i hzf hsf]
  cases jumpTaken i t with
  | false => exact hflags
  | true => exact hflags.redirect _

/-- Settles O41: each of the three parts of a next state keeps indistinguishability. -/
theorem programsCannotSeeHiddenState : Obligations.ProgramsCannotSeeHiddenState := by
  intro i s t s' t' h hs ht
  obtain rfl := exec_next hs
  obtain rfl := exec_next ht
  exact h.execState i

/-! ## Comparison, and a location that is source and destination -/

/-- Settles O42: the flags after `cmp` are those of the difference, 0 for equal values and negative for less. -/
theorem jumpsAfterCompare : Obligations.JumpsAfterCompare := by
  intro a b target u s t h
  obtain rfl := Host.Outcome.next.inj ((exec_cmp a b s).symm.trans h)
  have hzf := setFlags_zf_iff (wrap (readOp a s - readOp b s)) s
  have hsf := setFlags_sf_iff (wrap (readOp a s - readOp b s)) s
  rw [wrap_eq, sub_eq_zero] at hzf
  rw [wrap_eq, sub_neg] at hsf
  have hnot : ∀ flag : Bool, (!flag) = true ↔ ¬ flag = true := by decide
  refine ⟨hzf, ?jnz, hsf, ?jns⟩
  case jnz => exact (hnot _).trans hzf.not
  case jns => exact (hnot _).trans (hsf.not.trans not_lt)

/-- Settles O43: each result is computed from reads of the old state, and then written. -/
theorem sourceIsDestination : Obligations.SourceIsDestination := by
  refine ⟨fun r s t h => ?double, fun d s t h => ?difference, fun r s t h => ?load, fun r s t h hlow hhigh => ?addTo⟩
  case double =>
    obtain rfl := Host.Outcome.next.inj ((exec_add (.reg r) (.reg r) s).symm.trans h)
    obtain ⟨⟨hregs, -⟩, -⟩ := setFlags_writeOp_frame (.reg r) (wrap (readReg s r + readReg s r)) _ s
    exact (hregs r).trans ((if_pos rfl).trans (two_mul _).symm)
  case difference =>
    obtain rfl := Host.Outcome.next.inj ((exec_sub d d s).symm.trans h)
    rw [sub_self]
    exact ⟨rfl, rfl⟩
  case load =>
    obtain rfl := Host.Outcome.next.inj ((exec_mov (.reg r) (.ind r) s).symm.trans h)
    obtain ⟨hregs, -⟩ := writeOp_writes (.reg r) (memRead s (readReg s r)) s
    exact (hregs r).trans (if_pos rfl)
  case addTo =>
    obtain rfl := Host.Outcome.next.inj ((exec_add (.ind r) (.reg r) s).symm.trans h)
    obtain ⟨⟨hregs, hmem, -⟩, -⟩ := setFlags_writeOp_frame (.ind r)
      (wrap (memRead s (readReg s r) + readReg s r)) _ s
    exact ⟨(hmem _).trans (if_pos ⟨rfl, hlow, hhigh⟩), (hregs r).trans (if_neg nofun)⟩

end Sys2Proof.Machine
end

section
/-! PROOFS. The obligations of spec/40_cycle.md on the outcomes of a step, and of spec/60_exceptions.md R202 on a
negative `pc`. What a step can do is `stepCall_cases` of Laws/Cycle.lean; a stopped machine is a fixed point of the
step. -/

namespace Sys2Proof.Machine

open Sys2Proof

/-- Settles O44: the step's own equation in the halted condition. -/
theorem haltedStepClearsRunning : Obligations.HaltedStepClearsRunning := by
  intro s h
  have hstep := stepCall_halted ((haltedCondition_iff s).2 h)
  exact ⟨hstep, step_of_stepCall hstep⟩

/-- A running machine before the end of its program is not halted (spec/40_cycle.md R100). -/
theorem haltedCondition_eq_false_iff (s : State) :
    haltedCondition s = false ↔ s.running = true ∧ s.pc < (s.program.length : Int) := by
  rw [← Bool.not_eq_true, haltedCondition_iff, not_or, Bool.not_eq_false, not_le]

/-- A running machine at a negative `pc` is not halted: the check for it comes second (spec/60_exceptions.md R204). -/
theorem haltedCondition_of_negative {s : State} (hrun : s.running = true) (hpc : s.pc < 0) :
    haltedCondition s = false :=
  (haltedCondition_eq_false_iff s).2 ⟨hrun, by omega⟩

/-- Settles O45: the step's own equation at a negative `pc`. -/
theorem negativePcFails : Obligations.NegativePcFails := by
  intro s hrun hpc
  have hstep := stepCall_failed (haltedCondition_of_negative hrun hpc) hpc
  exact ⟨hstep, step_of_stepCall hstep⟩

/-- Settles O48: the halted step, the failed step, and the step that executes the record it fetches. -/
theorem stepIsTotal : Obligations.StepIsTotal := by
  intro s hrecords
  have hanswer : ∃ o t, stepCall s = .next (o, t) := by
    cases hhalted : haltedCondition s with
    | true => exact ⟨_, _, stepCall_halted hhalted⟩
    | false =>
      rcases lt_or_ge s.pc 0 with hpc | hpc
      · exact ⟨_, _, stepCall_failed hhalted hpc⟩
      · obtain ⟨r, -, hr⟩ := fetch_isSome hhalted hpc
        obtain ⟨i, hi⟩ := hrecords r (List.mem_of_getElem? hr)
        exact ⟨_, _, stepCall_execute hhalted hpc hr hi⟩
  obtain ⟨o, t, hstep⟩ := hanswer
  exact ⟨o, t, hstep, step_of_stepCall hstep⟩

/-! ## A stopped machine -/

/-- Clearing `running` changes nothing in a machine that is not running. -/
theorem haltStep_of_not_running {s : State} (h : s.running = false) : haltStep s = s := by
  rw [haltStep, ← h]

/-- A machine that is not running takes a halted step to itself. -/
theorem stepCall_of_not_running {s : State} (h : s.running = false) : stepCall s = .next (.halted, s) := by
  rw [stepCall_halted ((haltedCondition_iff s).2 (.inl h)), haltStep_of_not_running h]

/-- A step that does not continue stops the machine (spec/40_cycle.md R100, R101). -/
theorem not_running_of_not_continued {s t : State} {o : StepOutcome} (h : stepCall s = .next (o, t))
    (ho : o ≠ .continued) : t.running = false := by
  obtain ⟨-, -, rfl⟩ | ⟨-, -, -, rfl⟩ | ⟨-, -, hcontinued, -⟩ := stepCall_cases h
  · exact haltStep_running s
  · exact takeFailure_running _ s
  · exact absurd hcontinued ho

/-- Steps that answer the state they start from answer it any number of times. -/
theorem run_of_step_self {s : State} (h : step s = .next s) (n : Nat) : Host.Core.run Sys2Proof.core n s = .next s := by
  induction n with
  | zero => rfl
  | succ n ih =>
    have hstep : Sys2Proof.core.step s = .next s := h
    simp only [Host.Core.run, hstep, ih]

/-- Settles O49: such a step leaves a machine that is not running, which steps to itself. -/
theorem stoppedMachineStays : Obligations.StoppedMachineStays := by
  intro s t o n h ho
  have hstep := stepCall_of_not_running (not_running_of_not_continued h ho)
  exact ⟨hstep, run_of_step_self (step_of_stepCall hstep) n⟩

/-! ## A step that continues -/

/-- A step that continues has executed the instruction of the record at `pc`. -/
theorem continued_cases {s t : State} (h : stepCall s = .next (.continued, t)) :
    haltedCondition s = false ∧ 0 ≤ s.pc ∧ ∃ r i, s.program[s.pc.toNat]? = some r ∧ decodeRecord r = .instr i ∧
      t = advance (execState i (latch r s)) := by
  obtain ⟨-, ho, -⟩ | ⟨-, -, ho, -⟩ | ⟨hhalted, hpc, -, hexecuted⟩ := stepCall_cases h
  · exact nomatch ho
  · exact nomatch ho
  · exact ⟨hhalted, hpc, hexecuted⟩

/-- Only a taken jump leaves a negative `pc` after a non-negative one: any other instruction adds 1 to it. -/
theorem jumpTaken_of_negative {s : State} {r : InstrRecord} {i : Instr} (hpc : 0 ≤ s.pc)
    (hneg : (advance (execState i (latch r s))).pc < 0) :
    jumpTaken i s = true ∧ readOp i.operand1 s = (advance (execState i (latch r s))).pc := by
  rw [advance_execState_latch_pc] at hneg ⊢
  split at hneg
  case isTrue htaken => exact ⟨htaken, (if_pos htaken).symm⟩
  case isFalse => omega

/-- Settles O50: the record and the instruction of `continued_cases`, and a taken jump for the negative `pc`. -/
theorem negativePcOnlyByJump : Obligations.NegativePcOnlyByJump := by
  intro s t hpc h hneg
  obtain ⟨-, -, r, i, hr, hi, rfl⟩ := continued_cases h
  obtain ⟨htaken, htarget⟩ := jumpTaken_of_negative hpc hneg
  obtain ⟨-, hir, -⟩ := execState_control i (latch r s)
  exact ⟨r, i, hr, hi, (advance_ir _).trans hir, htaken, htarget⟩

end Sys2Proof.Machine
end

section
/-! PROOFS. The invariant of spec/10_state.md, kept by every step. A step changes the state by `haltStep`, by
`takeFailure` or by an executed instruction, and each of the three keeps `Inv`; the first two, and a poke, change none
of the fields the invariant ties together (`Inv.of_same`). -/

namespace Sys2Proof.Machine

open Sys2Proof

/-- Settles O54: every clause holds of the reset fields. -/
theorem resetHasInvariant : Obligations.ResetHasInvariant where
  memory := reset_mem_wf
  flags := fun h => Bool.false_ne_true h.1
  records := nofun
  latched := nofun
  counted := iff_of_true rfl rfl
  entry := fun _ => rfl
  failure := fun h => absurd rfl h
  negative := fun h => absurd h (lt_irrefl 0)

/-- The invariant passes to a state with the same flags, program, `ir`, counter and `pc`, canonical memory, and a
failure only where the machine is stopped at a negative `pc`. -/
theorem Inv.of_same {s t : State} (h : Inv s) (hmem : Memory.wf t.mem) (hflags : SameFlags s t)
    (hprogram : t.program = s.program) (hir : t.ir = s.ir) (hexecuted : t.executed = s.executed) (hpc : t.pc = s.pc)
    (hfailure : t.lastError ≠ none → t.running = false ∧ t.pc < 0) : Inv t where
  memory := hmem
  flags := by rw [hflags.1, hflags.2]; exact h.flags
  records := by rw [hprogram]; exact h.records
  latched := by rw [hir, hprogram]; exact h.latched
  counted := by rw [hir, hexecuted]; exact h.counted
  entry := by rw [hexecuted, hpc]; exact h.entry
  failure := hfailure
  negative := by rw [hpc, hir]; exact h.negative

/-- A halted step keeps the invariant: the machine it stops had stopped already wherever a failure is recorded. -/
theorem Inv.haltStep {s : State} (h : Inv s) : Inv (haltStep s) :=
  h.of_same h.memory ⟨rfl, rfl⟩ rfl rfl rfl rfl fun he => ⟨rfl, (h.failure he).2⟩

/-- A failed step keeps the invariant: the failure is recorded in a machine it stops, at a negative `pc`. -/
theorem Inv.takeFailure {s : State} (h : Inv s) (e : Fault) (hpc : s.pc < 0) : Inv (takeFailure e s) :=
  h.of_same h.memory ⟨rfl, rfl⟩ rfl rfl rfl rfl fun _ => ⟨rfl, hpc⟩

/-- A write to memory keeps the invariant. -/
theorem Inv.memWrite {s : State} (h : Inv s) (a v : Int) : Inv (memWrite s a v) := by
  refine h.of_same (memWrite_wf a v h.memory) ⟨memWrite_zf s a v, memWrite_sf s a v⟩ (memWrite_program s a v)
    (memWrite_ir s a v) (memWrite_executed s a v) (memWrite_pc s a v) fun he => ?failure
  case failure =>
    rw [memWrite_lastError] at he
    rw [memWrite_running, memWrite_pc]
    exact h.failure he

/-- The flags of a next state are not both set: those of one result are not, and the old ones were not
(spec/10_state.md R39). -/
theorem execState_flags {i : Instr} {s : State} (h : ¬ (s.zf = true ∧ s.sf = true)) :
    ¬ ((execState i s).zf = true ∧ (execState i s).sf = true) := by
  rw [execState_zf, execState_sf]
  cases flagsOf i s with
  | none => exact h
  | some r =>
    simp only [beq_iff_eq, decide_eq_true_eq]
    omega

/-- Only a jump is ever taken. -/
theorem isJump_of_jumpTaken {i : Instr} {s : State} (h : jumpTaken i s = true) : i.mnemonic.isJump = true := by
  cases i
  case jmp | jz | jnz | js | jns => rfl
  all_goals exact absurd h Bool.false_ne_true

/-- A machine with the invariant that is not halted has recorded no failure. -/
theorem Inv.lastError_of_not_halted {s : State} (h : Inv s) (hhalted : haltedCondition s = false) :
    s.lastError = none := by
  by_contra he
  obtain ⟨hrun, -⟩ := (haltedCondition_eq_false_iff s).1 hhalted
  exact Bool.false_ne_true ((h.failure he).1.symm.trans hrun)

/-- A step that executes keeps the invariant. -/
theorem Inv.continued {s t : State} (h : Inv s) (hstep : stepCall s = .next (.continued, t)) : Inv t := by
  obtain ⟨hhalted, hpc, r, i, hr, hi, rfl⟩ := continued_cases hstep
  obtain ⟨hprogram, hir, -, -, herror⟩ := execState_control i (latch r s)
  exact {
    memory := execState_wf (s := latch r s) h.memory
    flags := execState_flags (s := latch r s) h.flags
    records := by rw [advance_program, hprogram]; exact h.records
    latched := by
      rw [advance_ir, hir, advance_program, hprogram]
      rintro q ⟨⟩
      exact List.mem_of_getElem? hr
    counted := by
      rw [advance_ir, hir, advance_executed]
      exact iff_of_false nofun (Nat.succ_ne_zero _)
    entry := fun hzero => absurd hzero (Nat.succ_ne_zero _)
    failure := fun he => absurd (herror.trans (h.lastError_of_not_halted hhalted)) he
    negative := fun hneg => by
      obtain ⟨htaken, -⟩ := jumpTaken_of_negative hpc hneg
      exact ⟨r, hir, mnemonic_of_decodeRecord hi ▸ isJump_of_jumpTaken htaken⟩ }

/-- Every step keeps the invariant, whatever its outcome. -/
theorem Inv.stepCall {s t : State} {o : StepOutcome} (h : Inv s) (hstep : stepCall s = .next (o, t)) : Inv t := by
  obtain ⟨-, -, rfl⟩ | ⟨-, hpc, -, rfl⟩ | ⟨-, -, rfl, -⟩ := stepCall_cases hstep
  · exact h.haltStep
  · exact h.takeFailure _ hpc
  · exact h.continued hstep

/-- Settles O53: a step is its call's next state, and the call keeps the invariant. -/
theorem stepKeepsInvariant : Obligations.StepKeepsInvariant := by
  intro s t h hstep
  obtain ⟨o, hcall⟩ := step_eq_next hstep
  exact h.stepCall hcall

end Sys2Proof.Machine
end

section
/-! PROOFS. The obligations of spec/60_exceptions.md R215 to R222 and spec/70_reset_and_hazards.md R230 on the host's
calls. The run driver's loop is a run of continued steps and then a stop, a failure or the end of the budget
(`runLoop_cases`): the statements about its answers, and about all seven calls, follow from that. -/

namespace Sys2Proof.Machine

open Sys2Proof

/-! ## The run driver -/

/-- The driver stops in the halted condition, whatever the budget. -/
theorem runLoop_halted {s : State} (budget n : Nat) (h : haltedCondition s = true) :
    runLoop budget n s = .next (.completed n, s) := by
  cases budget <;> rw [runLoop, if_pos h]

/-- The driver stops at the end of the budget. -/
theorem runLoop_zero {s : State} (n : Nat) (h : haltedCondition s = false) :
    runLoop 0 n s = .next (.limitExceeded n, s) := by
  rw [runLoop, if_neg (by simp [h])]

/-- The driver goes on after a step that continues, and counts it. -/
theorem runLoop_continued {s t : State} (budget n : Nat) (h : stepCall s = .next (.continued, t)) :
    runLoop (budget + 1) n s = runLoop budget (n + 1) t := by
  obtain ⟨hhalted, -⟩ := continued_cases h
  rw [runLoop, if_neg (by simp [hhalted])]
  simp only [h]

/-- The driver stops after a step that fails, and does not count it (spec/60_exceptions.md R217). -/
theorem runLoop_failed {s : State} (budget n : Nat) (hhalted : haltedCondition s = false) (hpc : s.pc < 0) :
    runLoop (budget + 1) n s = .next (.completed n, takeFailure .invalidPc s) := by
  rw [runLoop, if_neg (by simp [hhalted])]
  simp only [stepCall_failed hhalted hpc]
  exact runLoop_halted budget n ((haltedCondition_iff _).2 (.inl rfl))

/-- Where the driver answers past a step that neither halts nor fails, the step continued: it was not refused. -/
theorem continued_of_runLoop {budget n : Nat} {s t : State} {r : RunResponse}
    (h : runLoop (budget + 1) n s = .next (r, t)) (hhalted : haltedCondition s = false) (hpc : 0 ≤ s.pc) :
    ∃ u, stepCall s = .next (.continued, u) := by
  match hstep : stepCall s with
  | .next (o, u) =>
    obtain ⟨hh, -⟩ | ⟨-, hneg, -⟩ | ⟨-, -, rfl, -⟩ := stepCall_cases hstep
    · exact absurd (hhalted.symm.trans hh) Bool.false_ne_true
    · exact absurd hpc (not_le.2 hneg)
    · exact ⟨u, rfl⟩
  | .fault f => simp [runLoop, hhalted, hstep] at h
  | .refused w => simp [runLoop, hhalted, hstep] at h

/-- A run of continued steps with one more before it. -/
theorem continues_cons {n : Nat} {s t u : State} (hstep : stepCall s = .next (.continued, u))
    (h : continues n u = some t) : continues (n + 1) s = some t := by
  simp only [continues, hstep, h]

/-- What an answer of the driver's loop says: it passed over `n` continued steps, to a state `u`, and stopped there:
in the halted condition, by the failure at a negative `pc`, or at the end of the budget. -/
theorem runLoop_cases {budget k : Nat} {s t : State} {r : RunResponse} (h : runLoop budget k s = .next (r, t)) :
    ∃ n u, n ≤ budget ∧ continues n s = some u ∧
      ((haltedCondition u = true ∧ r = .completed (k + n) ∧ t = u) ∨
       (haltedCondition u = false ∧ u.pc < 0 ∧ r = .completed (k + n) ∧ t = takeFailure .invalidPc u) ∨
       (haltedCondition u = false ∧ n = budget ∧ r = .limitExceeded (k + n) ∧ t = u)) := by
  induction budget generalizing k s with
  | zero =>
    cases hhalted : haltedCondition s with
    | true =>
      rw [runLoop_halted 0 k hhalted] at h
      cases h
      exact ⟨0, t, le_rfl, rfl, .inl ⟨hhalted, rfl, rfl⟩⟩
    | false =>
      rw [runLoop_zero k hhalted] at h
      cases h
      exact ⟨0, t, le_rfl, rfl, .inr (.inr ⟨hhalted, rfl, rfl, rfl⟩)⟩
  | succ budget ih =>
    cases hhalted : haltedCondition s with
    | true =>
      rw [runLoop_halted _ k hhalted] at h
      cases h
      exact ⟨0, t, Nat.zero_le _, rfl, .inl ⟨hhalted, rfl, rfl⟩⟩
    | false =>
      rcases lt_or_ge s.pc 0 with hpc | hpc
      · rw [runLoop_failed budget k hhalted hpc] at h
        cases h
        exact ⟨0, s, Nat.zero_le _, rfl, .inr (.inl ⟨hhalted, hpc, rfl, rfl⟩)⟩
      · obtain ⟨u, hstep⟩ := continued_of_runLoop h hhalted hpc
        rw [runLoop_continued budget k hstep] at h
        obtain ⟨n, v, hn, hv, hanswer⟩ := ih h
        refine ⟨n + 1, v, Nat.succ_le_succ hn, continues_cons hstep hv, ?_⟩
        rwa [show k + (n + 1) = k + 1 + n by omega, Nat.add_right_cancel_iff]

/-- What a run of continued steps keeps, and its count. -/
theorem continues_control {n : Nat} {s t : State} (h : continues n s = some t) :
    t.program = s.program ∧ t.executed = s.executed + n ∧ t.running = s.running ∧ t.lastError = s.lastError := by
  induction n generalizing s with
  | zero =>
    cases h
    exact ⟨rfl, rfl, rfl, rfl⟩
  | succ n ih =>
    obtain ⟨u, hstep, hu⟩ := continues_succ h
    obtain ⟨-, -, hprogram, hexecuted, hrunning, herror⟩ := continued_control hstep
    obtain ⟨hprogram', hexecuted', hrunning', herror'⟩ := ih hu
    exact ⟨hprogram'.trans hprogram, by omega, hrunning'.trans hrunning, herror'.trans herror⟩

/-- A run of continued steps is that many machine steps. -/
theorem run_of_continues {n : Nat} {s t : State} (h : continues n s = some t) :
    Host.Core.run Sys2Proof.core n s = .next t := by
  induction n generalizing s with
  | zero =>
    cases h
    rfl
  | succ n ih =>
    obtain ⟨u, hstep, hu⟩ := continues_succ h
    have hcore : Sys2Proof.core.step s = .next u := step_of_stepCall hstep
    simp only [Host.Core.run, hcore, ih hu]

/-- `runAuto` passes over continued steps within its budget. -/
theorem runAuto_of_continues {n b : Nat} {maxSteps : Int} {s t : State} (h : continues n s = some t)
    (hbudget : maxSteps.toNat = n + b) : runAuto maxSteps s = runLoop b n t := by
  rw [runAuto, hbudget, runLoop_continues n b 0 s t h, Nat.zero_add]

/-- Settles O58: the driver passes over the `n` steps, and the loop's equations say how it stops after them. -/
theorem runAutoIsRepeatedStep : Obligations.RunAutoIsRepeatedStep := by
  intro n maxSteps s t h
  obtain ⟨-, hexecuted, -⟩ := continues_control h
  refine ⟨run_of_continues h, hexecuted, fun hle hhalted => ?completed, fun heq hhalted => ?limit,
    fun hlt hrun hpc => ?failed⟩
  case completed =>
    rw [runAuto_of_continues (b := maxSteps.toNat - n) h (by omega), runLoop_halted _ _ hhalted]
  case limit => rw [runAuto_of_continues (b := 0) h (by omega), runLoop_zero _ hhalted]
  case failed =>
    rw [runAuto_of_continues (b := maxSteps.toNat - n - 1 + 1) h (by omega),
      runLoop_failed _ _ (haltedCondition_of_negative hrun hpc) hpc]
    rfl

/-- Settles O59: each case of `runLoop_cases` with what a run of continued steps keeps. -/
theorem runAutoAnswers : Obligations.RunAutoAnswers := by
  intro maxSteps s t r h
  obtain ⟨n, u, hn, hu, hanswer⟩ := runLoop_cases h
  obtain ⟨-, hexecuted, hrunning, herror⟩ := continues_control hu
  rw [Nat.zero_add] at hanswer
  obtain ⟨hhalted, rfl, rfl⟩ | ⟨hhalted, hpc, rfl, rfl⟩ | ⟨hhalted, rfl, rfl, rfl⟩ := hanswer
  · refine ⟨nofun, ?_⟩
    rintro _ ⟨⟩
    exact ⟨hn, hhalted, hexecuted, t, hu, .inl rfl⟩
  · refine ⟨nofun, ?_⟩
    rintro _ ⟨⟩
    obtain ⟨hrun, -⟩ := (haltedCondition_eq_false_iff u).1 hhalted
    exact ⟨hn, (haltedCondition_iff _).2 (.inl rfl), hexecuted, u, hu, .inr ⟨hrun, hpc, rfl⟩⟩
  · refine ⟨?_, nofun⟩
    rintro _ ⟨⟩
    obtain ⟨hrun, -⟩ := (haltedCondition_eq_false_iff t).1 hhalted
    exact ⟨rfl, hu, hrun, herror⟩

/-! ## One call -/

/-- A call's answer is that of the operation behind it, with its response. -/
theorem respond_eq_next {α : Type} {f : α → Response} {x : Host.Outcome (α × State) Fault Refusal} {r : Response}
    {t : State} (h : respond f x = .next (r, t)) : ∃ a, x = .next (a, t) ∧ r = f a := by
  match x with
  | .next (a, u) =>
    cases h
    exact ⟨a, rfl, rfl⟩
  | .fault e => exact nomatch h
  | .refused w => exact nomatch h

/-- What a host call can do: load a program, step, run, reset, write one cell, or only observe. -/
theorem call_cases {c : HostCall} {r : Response} {s t : State} (h : call c s = .next (r, t)) :
    (∃ text a, c = .loadProgram text ∧ loadProgram text s = .next (a, t)) ∨
    (∃ o, stepCall s = .next (o, t)) ∨
    (∃ maxSteps a, runAuto maxSteps s = .next (a, t)) ∨
    (c = .reset ∧ t = State.reset) ∨
    (∃ a v, t = memWrite s a v) ∨
    t = s := by
  cases c with
  | loadProgram text =>
    obtain ⟨a, ha, -⟩ := respond_eq_next h
    exact .inl ⟨text, a, rfl, ha⟩
  | step =>
    obtain ⟨o, ho, -⟩ := respond_eq_next h
    exact .inr (.inl ⟨o, ho⟩)
  | runAuto maxSteps =>
    cases maxSteps with
    | none =>
      obtain ⟨a, ha, -⟩ := respond_eq_next h
      exact .inr (.inr (.inl ⟨_, a, ha⟩))
    | some n =>
      obtain ⟨a, ha, -⟩ := respond_eq_next h
      exact .inr (.inr (.inl ⟨n, a, ha⟩))
  | reset =>
    cases h
    exact .inr (.inr (.inr (.inl ⟨rfl, rfl⟩)))
  | setMemory a v =>
    cases h
    exact .inr (.inr (.inr (.inr (.inl ⟨a, v, rfl⟩))))
  | snapshot | getMemory a =>
    cases h
    exact .inr (.inr (.inr (.inr (.inr rfl))))

/-- No run changes the program (spec/20_memory.md R66). -/
theorem runAuto_program {maxSteps : Int} {s t : State} {r : RunResponse} (h : runAuto maxSteps s = .next (r, t)) :
    t.program = s.program := by
  obtain ⟨n, u, -, hu, hanswer⟩ := runLoop_cases h
  obtain ⟨hprogram, -⟩ := continues_control hu
  obtain ⟨-, -, rfl⟩ | ⟨-, -, -, rfl⟩ | ⟨-, -, -, rfl⟩ := hanswer
  all_goals exact hprogram

/-- Settles O52: every other call keeps the program. -/
theorem onlyLoadAndResetChangeProgram : Obligations.OnlyLoadAndResetChangeProgram := by
  intro c r s t h hne
  obtain ⟨text, a, hload, -⟩ | ⟨o, hstep⟩ | ⟨maxSteps, a, hrun⟩ | ⟨hreset, -⟩ | ⟨a, v, rfl⟩ | rfl := call_cases h
  · exact .inl ⟨text, hload⟩
  · exact absurd (stepCall_program hstep) hne
  · exact absurd (runAuto_program hrun) hne
  · exact .inr hreset
  · exact absurd (memWrite_program s a v) hne
  · exact absurd rfl hne

/-! ## Reachable states -/

/-- Continued steps keep the invariant. -/
theorem Inv.continues {n : Nat} {s t : State} (h : Inv s) (ht : continues n s = some t) : Inv t := by
  induction n generalizing s with
  | zero =>
    cases ht
    exact h
  | succ n ih =>
    obtain ⟨u, hstep, hu⟩ := continues_succ ht
    exact ih (h.continued hstep) hu

/-- A run keeps the invariant. -/
theorem Inv.runAuto {maxSteps : Int} {s t : State} {r : RunResponse} (h : Inv s)
    (hrun : runAuto maxSteps s = .next (r, t)) : Inv t := by
  obtain ⟨n, u, -, hu, hanswer⟩ := runLoop_cases hrun
  have hinv : Inv u := h.continues hu
  obtain ⟨-, -, rfl⟩ | ⟨-, hpc, -, rfl⟩ | ⟨-, -, -, rfl⟩ := hanswer
  · exact hinv
  · exact hinv.takeFailure _ hpc
  · exact hinv

/-- A freshly installed program has the invariant: its records come from the decoder, and nothing has executed. -/
theorem inv_install {text : Text} {rs : List InstrRecord} (s : State) (h : decodeText text = .program rs) :
    Inv (install rs s) where
  memory := reset_mem_wf
  flags := resetHasInvariant.flags
  records := decodeLines_records h
  latched := nofun
  counted := resetHasInvariant.counted
  entry := fun _ => rfl
  failure := fun he => absurd rfl he
  negative := resetHasInvariant.negative

/-- A load that answers leaves a machine with the invariant, installed or reset. -/
theorem inv_of_loadProgram {text : Text} {s t : State} {a : LoadResponse} (h : loadProgram text s = .next (a, t)) :
    Inv t := by
  obtain ⟨rs, hdecode, hload⟩ | ⟨line, token, message, -, hload⟩ | ⟨line, -, hload⟩ := loadProgram_cases text s
  · cases hload.symm.trans h
    exact inv_install s hdecode
  · cases hload.symm.trans h
    exact resetHasInvariant
  · exact nomatch hload.symm.trans h

/-- Every host call keeps the invariant. -/
theorem Inv.call {c : HostCall} {r : Response} {s t : State} (h : Inv s) (hcall : call c s = .next (r, t)) : Inv t := by
  obtain ⟨text, a, -, hload⟩ | ⟨o, hstep⟩ | ⟨maxSteps, a, hrun⟩ | ⟨-, rfl⟩ | ⟨a, v, rfl⟩ | rfl := call_cases hcall
  · exact inv_of_loadProgram hload
  · exact h.stepCall hstep
  · exact h.runAuto hrun
  · exact resetHasInvariant
  · exact h.memWrite a v
  · exact h

/-- Settles O55: the reset state has the invariant, and every call keeps it. -/
theorem reachableStatesHaveInvariant : Obligations.ReachableStatesHaveInvariant := by
  intro s hs
  induction hs with
  | reset => exact resetHasInvariant
  | call _ hcall ih => exact ih.call hcall

/-! ## The executor state machine -/

/-- Failed is a recorded failure (spec/10_state.md R33). -/
theorem executorState_eq_failed {s : State} : executorState s = .failed ↔ s.lastError ≠ none := by
  obtain ⟨he, hs⟩ | ⟨he, -, hs⟩ | ⟨he, -, -, hs⟩ | ⟨he, -, hs⟩ := executorState_cases s
  all_goals simp [he, hs]

/-- Idle is no program and not running, without a recorded failure (spec/10_state.md R33). -/
theorem executorState_eq_idle {s : State} : executorState s = .idle ↔ s.lastError = none ∧ isIdle s = true := by
  obtain ⟨he, hs⟩ | ⟨he, hi, hs⟩ | ⟨he, hi, -, hs⟩ | ⟨he, hh, hs⟩ := executorState_cases s
  case inr.inr.inr =>
    have hi : isIdle s ≠ true := fun hi => by simp [haltedCondition_of_isIdle hi] at hh
    simp [hs, hi]
  all_goals simp_all

/-- Halted is the halted condition of a machine that is not idle, without a recorded failure (spec/10_state.md R33). -/
theorem executorState_eq_halted {s : State} :
    executorState s = .halted ↔ s.lastError = none ∧ isIdle s = false ∧ haltedCondition s = true := by
  obtain ⟨he, hs⟩ | ⟨he, hi, hs⟩ | ⟨he, hi, hh, hs⟩ | ⟨he, hh, hs⟩ := executorState_cases s
  all_goals simp_all

/-- Running is no halted condition and no recorded failure (spec/10_state.md R33). -/
theorem executorState_eq_running {s : State} :
    executorState s = .running ↔ s.lastError = none ∧ haltedCondition s = false := by
  obtain ⟨he, hs⟩ | ⟨he, hi, hs⟩ | ⟨he, hi, hh, hs⟩ | ⟨he, hh, hs⟩ := executorState_cases s
  case inr.inl => simp [hs, haltedCondition_of_isIdle hi]
  all_goals simp_all

/-- A machine that is running is not idle. -/
theorem isIdle_of_running {s : State} (h : s.running = true) : isIdle s = false := by
  simp [isIdle, h]

/-- A running machine without a recorded failure is Running, or Halted at the end of its program. -/
theorem executorState_of_running {s : State} (hrun : s.running = true) (he : s.lastError = none) :
    executorState s = if (s.program.length : Int) ≤ s.pc then .halted else .running := by
  split
  case isTrue hpc => exact executorState_eq_halted.2 ⟨he, isIdle_of_running hrun, (haltedCondition_iff s).2 (.inr hpc)⟩
  case isFalse hpc => exact executorState_eq_running.2 ⟨he, (haltedCondition_eq_false_iff s).2 ⟨hrun, not_le.1 hpc⟩⟩

/-- A halted step of a machine without a recorded failure leaves it Halted, or Idle if it has no program (log 10). -/
theorem executorState_haltStep {s : State} (he : s.lastError = none) :
    executorState (haltStep s) = .halted ∨ s.program = [] ∧ executorState (haltStep s) = .idle := by
  by_cases hp : s.program = []
  · exact .inr ⟨hp, executorState_eq_idle.2 ⟨he, (isIdle_iff _).2 ⟨hp, rfl⟩⟩⟩
  · have hidle : isIdle (haltStep s) = false := by
      rw [← Bool.not_eq_true, isIdle_iff]
      exact fun h => hp h.1
    exact .inl (executorState_eq_halted.2 ⟨he, hidle, (haltedCondition_iff _).2 (.inl rfl)⟩)

/-- The steps of a machine in the halted condition. -/
theorem stepCall_of_halted {s t : State} {o : StepOutcome} (hhalted : haltedCondition s = true)
    (h : stepCall s = .next (o, t)) : o = .halted ∧ t = haltStep s := by
  cases (stepCall_halted hhalted).symm.trans h
  exact ⟨rfl, rfl⟩

/-- The steps of a machine that is not running. -/
theorem stepCall_not_running {s t : State} {o : StepOutcome} (hrun : s.running = false)
    (h : stepCall s = .next (o, t)) : o = .halted ∧ t = s := by
  cases (stepCall_of_not_running hrun).symm.trans h
  exact ⟨rfl, rfl⟩

/-- The steps of a Running machine: it continues, to Running or past the end to Halted, or it fails. -/
theorem executorState_of_running_step {s t : State} {o : StepOutcome} (hs : executorState s = .running)
    (h : stepCall s = .next (o, t)) :
    (o = .continued ∧ (executorState t = .running ∨ (t.program.length : Int) ≤ t.pc ∧ executorState t = .halted)) ∨
    (o = .failed .invalidPc ∧ executorState t = .failed) := by
  obtain ⟨he, hhalted⟩ := executorState_eq_running.1 hs
  obtain ⟨hrun, -⟩ := (haltedCondition_eq_false_iff s).1 hhalted
  obtain ⟨hh, -⟩ | ⟨-, -, rfl, rfl⟩ | ⟨-, -, rfl, -⟩ := stepCall_cases h
  · exact absurd (hhalted.symm.trans hh) Bool.false_ne_true
  · exact .inr ⟨rfl, executorState_eq_failed.2 nofun⟩
  · obtain ⟨-, -, -, -, hrunning, herror⟩ := continued_control h
    have ht := executorState_of_running (hrunning.trans hrun) (herror.trans he)
    refine .inl ⟨rfl, ?_⟩
    split at ht
    case isTrue hpc => exact .inr ⟨hpc, ht⟩
    case isFalse => exact .inl ht

/-- A machine with the invariant that is not Running is in the halted condition. -/
theorem Inv.halted_of_not_running {s : State} (h : Inv s) (hs : executorState s ≠ .running) :
    haltedCondition s = true := by
  obtain ⟨he, -⟩ | ⟨-, hidle, -⟩ | ⟨-, -, hhalted, -⟩ | ⟨-, -, hrunning⟩ := executorState_cases s
  · exact (haltedCondition_iff s).2 (.inl (h.failure he).1)
  · exact haltedCondition_of_isIdle hidle
  · exact hhalted
  · exact absurd hrunning hs

/-- A freshly installed program is Running, or Halted if it has no instructions (log 10). -/
theorem executorState_install (rs : List InstrRecord) (s : State) :
    executorState (install rs s) = if rs.length = 0 then .halted else .running := by
  have hlength : ((rs.length : Int) ≤ 0) ↔ rs.length = 0 := by omega
  have hstate := executorState_of_running (s := install rs s) rfl rfl
  change executorState (install rs s) = if (rs.length : Int) ≤ 0 then .halted else .running at hstate
  simpa only [hlength] using hstate

/-- Settles O51: the steps of each executor state, the other calls, and a run driver that has nothing to run. -/
theorem executorStateTransitions : Obligations.ExecutorStateTransitions := by
  refine ⟨fun s t o hinv hstep => ⟨fun hidle => ?idle, fun hfailed => ?failed, fun hhalted => ?halted,
    fun hrunning => executorState_of_running_step hrunning hstep⟩, fun s t r a v hcall => ?poke,
    fun s t r hcall => ?reset, fun s t text r hcall => ?load, fun s maxSteps hinv hs => ?run⟩
  case idle =>
    obtain ⟨-, hisIdle⟩ := executorState_eq_idle.1 hidle
    exact stepCall_not_running ((isIdle_iff s).1 hisIdle).2 hstep
  case failed => exact stepCall_not_running (hinv.failure (executorState_eq_failed.1 hfailed)).1 hstep
  case halted =>
    obtain ⟨he, -, hcondition⟩ := executorState_eq_halted.1 hhalted
    obtain ⟨rfl, rfl⟩ := stepCall_of_halted hcondition hstep
    exact ⟨rfl, executorState_haltStep he⟩
  case poke =>
    cases hcall
    exact executorState_congr (memWrite_lastError s a v) (memWrite_program s a v) (memWrite_pc s a v)
      (memWrite_running s a v)
  case reset =>
    cases hcall
    rfl
  case load =>
    obtain ⟨q, hload, hq⟩ := respond_eq_next hcall
    cases hq
    obtain ⟨rs, -, hloaded⟩ | ⟨line, token, message, -, hrejected⟩ | ⟨line, -, hrefused⟩ := loadProgram_cases text s
    · cases hloaded.symm.trans hload
      refine ⟨?_, nofun⟩
      rintro _ ⟨⟩
      exact executorState_install rs s
    · cases hrejected.symm.trans hload
      exact ⟨nofun, fun _ _ _ _ => rfl⟩
    · exact nomatch hrefused.symm.trans hload
  case run => exact runLoop_halted _ 0 (hinv.halted_of_not_running hs)

/-! ## Reset and observation -/

/-- Settles O56: the fields of the reset state; memory without keys reads 0. -/
theorem resetState : Obligations.ResetState := by
  refine fun s => ⟨State.reset, rfl, rfl, fun r => ?register, rfl, rfl,
    fun a => memRead_of_not_mem_keys List.not_mem_nil, rfl, rfl, rfl, rfl, rfl, rfl, rfl⟩
  case register => cases r <;> rfl

/-- Settles O60: both calls answer from the fields as they are. -/
theorem observationsChangeNothing : Obligations.ObservationsChangeNothing := by
  refine fun s => ⟨⟨snapshot s, ?snapshot, rfl, rfl, rfl, rfl, rfl, rfl, rfl, rfl, fun r => rfl⟩, fun a => ?read⟩
  case snapshot => rfl
  case read => rfl

end Sys2Proof.Machine
end
